-- ==== Sys2Proof/Word.lean ====
section
/-! DEFINITION. The types of the values the engine handles: 64-bit registers and addresses (R6 XLEN, R8),
bytes, 32-bit instruction words (R90) and 5-bit register numbers (R92). -/

namespace Sys2Proof

/-- A general register, the PC, a CSR value or a Bus address: a 64-bit pattern with no type of its own (R8, R22). -/
abbrev Word := BitVec 64

/-- One byte of Memory or of the instruction store (R60, R43). -/
abbrev Byte := BitVec 8

/-- One instruction word (R90). -/
abbrev InstrWord := BitVec 32

/-- A register number, as the rd, rs1 and rs2 fields hold it: 0 to 31 (R92, R104). -/
abbrev RegIdx := BitVec 5

end Sys2Proof
end

