-- ==== Sys2Proof/Config.lean ====
section
/-! DEFINITION. The parameters of the engine that are fixed for this hardware (R6, R7). The parameters that R6 calls
model arguments (PROG, INIT_X, INIT_CSR, INIT_MEM, X0_HARDWIRED) are inputs of `Machine.construct`. -/

namespace Sys2Proof

/-- BASE, the Bus address at which Memory begins (R6). -/
def Config.base : Nat := 0x80000000

/-- CAP, the capacity of Memory in bytes: 128 MiB (R6). -/
def Config.cap : Nat := 0x08000000

/-- NCSR, the number of CSR addresses (R6). -/
def Config.ncsr : Nat := 4096

/-- The address of the supervisor interrupt-enable view (R6, R32). -/
def Config.sie : Nat := 0x104

/-- The address of the machine interrupt-enable cell (R6, R32). -/
def Config.mie : Nat := 0x304

/-- The address of the machine interrupt-delegation cell (R6, R32). -/
def Config.mideleg : Nat := 0x303

/-- ILEN in bytes: every instruction is one 32-bit word (R6, R90). -/
def Config.ilenBytes : Nat := 4

/-- This hardware's decided value of the parameter X0_HARDWIRED (R23, D1). Log entry 2. -/
def Config.x0Hardwired : Bool := true

end Sys2Proof
end

