-- ==== Sys2Proof/Syntax.lean ====
section
/-! DEFINITION. The 13 instructions of the dispatch table (R98), one constructor per row of spec/opcode_table.json,
with the operands Decode returns (R99). -/

namespace Sys2Proof

/-- An instruction as Decode returns it (R99): register numbers, and the immediate as the 64-bit value imm_i or
imm_s, already sign-extended (R94, R95). DESIGN CHOICE, safe (log entry 12): the operand is the extended value, as in
the spec's own pseudocode, and `WellFormed` says which 64-bit values an instruction word can hold. -/
inductive Instr where
  /-- `LB rd,imm(rs1)`: load byte, sign-extended (R131). -/
  | lb (rd rs1 : RegIdx) (imm : Word)
  /-- `LH rd,imm(rs1)`: load halfword, sign-extended (R132). -/
  | lh (rd rs1 : RegIdx) (imm : Word)
  /-- `LW rd,imm(rs1)`: load word, sign-extended (R133). -/
  | lw (rd rs1 : RegIdx) (imm : Word)
  /-- `LD rd,imm(rs1)`: load doubleword (R134). -/
  | ld (rd rs1 : RegIdx) (imm : Word)
  /-- `LBU rd,imm(rs1)`: load byte, zero-extended (R135). -/
  | lbu (rd rs1 : RegIdx) (imm : Word)
  /-- `LHU rd,imm(rs1)`: load halfword, zero-extended (R136). -/
  | lhu (rd rs1 : RegIdx) (imm : Word)
  /-- `LWU rd,imm(rs1)`: load word, zero-extended (R137). -/
  | lwu (rd rs1 : RegIdx) (imm : Word)
  /-- `ADDI rd,rs1,imm`: add immediate (R150). -/
  | addi (rd rs1 : RegIdx) (imm : Word)
  /-- `SB rs2,imm(rs1)`: store byte (R161). -/
  | sb (rs1 rs2 : RegIdx) (imm : Word)
  /-- `SH rs2,imm(rs1)`: store halfword (R162). -/
  | sh (rs1 rs2 : RegIdx) (imm : Word)
  /-- `SW rs2,imm(rs1)`: store word (R163). -/
  | sw (rs1 rs2 : RegIdx) (imm : Word)
  /-- `SD rs2,imm(rs1)`: store doubleword (R164). -/
  | sd (rs1 rs2 : RegIdx) (imm : Word)
  /-- `ADD rd,rs1,rs2`: add registers (R180). -/
  | add (rd rs1 rs2 : RegIdx)
  deriving DecidableEq, Repr

end Sys2Proof
end

