-- ==== Sys2Proof/WellFormed.lean ====
section
/-! DEFINITION. Which instructions exist as words: every immediate lies in [-2048, 2047] (R94, R95, R104). Register
numbers are in range by their type. -/

namespace Sys2Proof

/-- The 64-bit value is a sign-extended 12-bit immediate: as a signed number it lies in [-2048, 2047] (R94, R104). -/
def immInRange (imm : Word) : Bool := decide (-2048 ≤ imm.toInt ∧ imm.toInt ≤ 2047)

/-- An instruction that an instruction word can hold. -/
def Instr.wellFormed : Instr → Bool
  | .lb _ _ imm => immInRange imm
  | .lh _ _ imm => immInRange imm
  | .lw _ _ imm => immInRange imm
  | .ld _ _ imm => immInRange imm
  | .lbu _ _ imm => immInRange imm
  | .lhu _ _ imm => immInRange imm
  | .lwu _ _ imm => immInRange imm
  | .addi _ _ imm => immInRange imm
  | .sb _ _ imm => immInRange imm
  | .sh _ _ imm => immInRange imm
  | .sw _ _ imm => immInRange imm
  | .sd _ _ imm => immInRange imm
  | .add _ _ _ => true

/-- `Instr.wellFormed` as a proposition. -/
abbrev Instr.WellFormed (i : Instr) : Prop := i.wellFormed = true

end Sys2Proof
end

