-- ==== Sys2Proof/Decode.lean ====
section
/-! DEFINITION. The instruction word: its bytes (R91), its fields and immediates (R92 to R97), the total decoder
(R98 to R103) and the encoder written from the same formats (R93). -/

namespace Sys2Proof

/-- opcode, bits 6:0 (R92). -/
def opcodeField (w : InstrWord) : BitVec 7 := w.extractLsb' 0 7

/-- rd, bits 11:7 (R92). -/
def rdField (w : InstrWord) : RegIdx := w.extractLsb' 7 5

/-- funct3, bits 14:12 (R92). -/
def funct3Field (w : InstrWord) : BitVec 3 := w.extractLsb' 12 3

/-- rs1, bits 19:15 (R92). -/
def rs1Field (w : InstrWord) : RegIdx := w.extractLsb' 15 5

/-- rs2, bits 24:20 (R92). -/
def rs2Field (w : InstrWord) : RegIdx := w.extractLsb' 20 5

/-- funct7, bits 31:25 (R92). -/
def funct7Field (w : InstrWord) : BitVec 7 := w.extractLsb' 25 7

/-- `sext_12`: bit 11 is copied into bits 63 to 12, over the full 64 bits (R9, R96, R97). -/
def sext12 (i : BitVec 12) : Word := i.signExtend 64

/-- imm_i = sext_12(w[31:20]) (R94). -/
def immI (w : InstrWord) : Word := sext12 (w.extractLsb' 20 12)

/-- imm_s = sext_12 of w[31:25] above w[11:7] (R95). -/
def immS (w : InstrWord) : Word := sext12 (w.extractLsb' 25 7 ++ w.extractLsb' 7 5)

/-- Why bytes do not give an instruction. -/
inductive DecodeError where
  /-- The word is not one of the 13 selections of R98: IllegalInstruction(w) (R99 to R101). -/
  | illegalInstruction (word : InstrWord)
  /-- Fewer than four bytes are there. The spec has no such case, since L is a multiple of 4 (R91). -/
  | truncated
  deriving DecidableEq, Repr

/-- The LOAD selections: funct3 0 to 6 under opcode 0x03, and not 7 (R98, R101, R139). -/
def decodeLoad (w : InstrWord) : Option Instr :=
  if funct3Field w = 0 then some (.lb (rdField w) (rs1Field w) (immI w))
  else if funct3Field w = 1 then some (.lh (rdField w) (rs1Field w) (immI w))
  else if funct3Field w = 2 then some (.lw (rdField w) (rs1Field w) (immI w))
  else if funct3Field w = 3 then some (.ld (rdField w) (rs1Field w) (immI w))
  else if funct3Field w = 4 then some (.lbu (rdField w) (rs1Field w) (immI w))
  else if funct3Field w = 5 then some (.lhu (rdField w) (rs1Field w) (immI w))
  else if funct3Field w = 6 then some (.lwu (rdField w) (rs1Field w) (immI w))
  else none

/-- The OP-IMM selection: funct3 0 under opcode 0x13 is ADDI, nothing else is listed (R98, R101, R151). -/
def decodeOpImm (w : InstrWord) : Option Instr :=
  if funct3Field w = 0 then some (.addi (rdField w) (rs1Field w) (immI w)) else none

/-- The STORE selections: funct3 0 to 3 under opcode 0x23 (R98, R101, R166). -/
def decodeStore (w : InstrWord) : Option Instr :=
  if funct3Field w = 0 then some (.sb (rs1Field w) (rs2Field w) (immS w))
  else if funct3Field w = 1 then some (.sh (rs1Field w) (rs2Field w) (immS w))
  else if funct3Field w = 2 then some (.sw (rs1Field w) (rs2Field w) (immS w))
  else if funct3Field w = 3 then some (.sd (rs1Field w) (rs2Field w) (immS w))
  else none

/-- The OP selection: funct3 0 and funct7 0 under opcode 0x33 is ADD, nothing else is listed (R98, R101, R181). -/
def decodeOp (w : InstrWord) : Option Instr :=
  if funct3Field w = 0 ∧ funct7Field w = 0 then some (.add (rdField w) (rs1Field w) (rs2Field w)) else none

/-- The row of the dispatch table a word selects, if any (R98). -/
def select (w : InstrWord) : Option Instr :=
  if opcodeField w = 0x03 then decodeLoad w
  else if opcodeField w = 0x13 then decodeOpImm w
  else if opcodeField w = 0x23 then decodeStore w
  else if opcodeField w = 0x33 then decodeOp w
  else none

/-- `Decode(w)`, total on every word: an instruction of R98 or IllegalInstruction(w) (R99). -/
def decode (w : InstrWord) : Except DecodeError Instr :=
  match select w with
  | some i => .ok i
  | none => .error (.illegalInstruction w)

/-- Four bytes read little-endian, the first in bits 7:0 (R91). -/
def wordOfBytes (b0 b1 b2 b3 : Byte) : InstrWord := b3 ++ b2 ++ b1 ++ b0

/-- The four bytes of a word, lowest address first (R91). -/
def bytesOfWord (w : InstrWord) : List Byte :=
  [w.extractLsb' 0 8, w.extractLsb' 8 8, w.extractLsb' 16 8, w.extractLsb' 24 8]

/-- Fetch and decode from the bytes that begin at the PC: `FetchWord` then `Decode` (R91, R99), with the bytes after
the word. -/
def decodeBytes : List Byte → Except DecodeError (Instr × List Byte)
  | b0 :: b1 :: b2 :: b3 :: rest =>
    match decode (wordOfBytes b0 b1 b2 b3) with
    | .ok i => .ok (i, rest)
    | .error e => .error e
  | _ => .error .truncated

/-- The word of an I-type instruction: imm[11:0], rs1, funct3, rd, opcode, high bits first (R93). -/
def encodeI (opcode : BitVec 7) (funct3 : BitVec 3) (rd rs1 : RegIdx) (imm : Word) : InstrWord :=
  imm.extractLsb' 0 12 ++ rs1 ++ funct3 ++ rd ++ opcode

/-- The word of an S-type instruction: imm[11:5], rs2, rs1, funct3, imm[4:0], opcode, high bits first (R93). -/
def encodeS (opcode : BitVec 7) (funct3 : BitVec 3) (rs1 rs2 : RegIdx) (imm : Word) : InstrWord :=
  imm.extractLsb' 5 7 ++ rs2 ++ rs1 ++ funct3 ++ imm.extractLsb' 0 5 ++ opcode

/-- The word of an R-type instruction: funct7, rs2, rs1, funct3, rd, opcode, high bits first (R93). -/
def encodeR (opcode : BitVec 7) (funct3 : BitVec 3) (funct7 : BitVec 7) (rd rs1 rs2 : RegIdx) : InstrWord :=
  funct7 ++ rs2 ++ rs1 ++ funct3 ++ rd ++ opcode

/-- The instruction word of a well-formed instruction, from the table and the formats (R93, R98). -/
def encode : Instr → InstrWord
  | .lb rd rs1 imm => encodeI 0x03 0 rd rs1 imm
  | .lh rd rs1 imm => encodeI 0x03 1 rd rs1 imm
  | .lw rd rs1 imm => encodeI 0x03 2 rd rs1 imm
  | .ld rd rs1 imm => encodeI 0x03 3 rd rs1 imm
  | .lbu rd rs1 imm => encodeI 0x03 4 rd rs1 imm
  | .lhu rd rs1 imm => encodeI 0x03 5 rd rs1 imm
  | .lwu rd rs1 imm => encodeI 0x03 6 rd rs1 imm
  | .addi rd rs1 imm => encodeI 0x13 0 rd rs1 imm
  | .sb rs1 rs2 imm => encodeS 0x23 0 rs1 rs2 imm
  | .sh rs1 rs2 imm => encodeS 0x23 1 rs1 rs2 imm
  | .sw rs1 rs2 imm => encodeS 0x23 2 rs1 rs2 imm
  | .sd rs1 rs2 imm => encodeS 0x23 3 rs1 rs2 imm
  | .add rd rs1 rs2 => encodeR 0x33 0 0 rd rs1 rs2

/-- The bytes of an instruction, as the instruction store holds them (R91). -/
def encodeBytes (i : Instr) : List Byte := bytesOfWord (encode i)

/-- The word the opcode table numbers with bit 0 lowest: the low `nbits` bits of `w`, the bits above them zero. -/
def tableWord (nbits w : Nat) : InstrWord := BitVec.ofNat 32 (w % 2 ^ nbits)

/-- What the decoder reads from an opcode-table word laid out as the instruction store holds it. -/
def decodeTableWord (nbits w : Nat) : Option Instr :=
  match decodeBytes (bytesOfWord (tableWord nbits w)) with
  | .ok (i, _) => some i
  | .error _ => none

end Sys2Proof
end

