-- ==== Sys2Proof/Machine/State.lean ====
section
/-! DEFINITION. The engine's state (R20), its four fault kinds (R200), its status (R45), the reasons the model stops
on, and the state right after reset (R46 to R51). -/

namespace Sys2Proof.Machine

/-- The width of a Memory access: 1, 2, 4 or 8 bytes (R61, R72). -/
inductive Width where
  | byte
  | half
  | word
  | dword
  deriving DecidableEq, Repr

/-- The four fault kinds, each with the information R200 (D8) gives it. Within a step a fault is a value of STATUS and
the step answers a NEXT state that holds it (R107, R206; log entry 1), so no step ends in `Host.Outcome.fault`; the
CSR port answers its fault to its caller. -/
inductive Fault where
  /-- A load or store whose bytes do not all lie below BASE + CAP (R201): raised by the seven loads and the four
  stores, with the effective address and the width. Safe: the spec's own outcome. -/
  | memoryFault (ea : Word) (width : Width)
  /-- A load or store at an address below BASE (R202): raised by the seven loads and the four stores. Safe: the
  spec's own outcome. -/
  | unmappedAddress (ea : Word) (width : Width)
  /-- A CSR port address of 4096 or more (R203): raised by `csrRead` and `csrWrite` alone, never by a step. Safe: the
  spec's own outcome. -/
  | csrRangeFault (address : Nat)
  /-- A word that is none of the 13 selections (R204): raised by the step at decode, with the word. Safe: the spec's
  own outcome. -/
  | illegalInstruction (word : InstrWord)
  deriving DecidableEq, Repr

/-- Why the model answers nothing. -/
inductive Refusal where
  /-- An instruction that has no meaning in the model: raised by no arm of `exec`, since all 13 have one. Safe. -/
  | notModelled (mnemonic : String)
  /-- STATUS is Running and fewer than four instruction-store bytes stand at the PC: raised by `step`. No state that
  `construct` gives or a step reaches is such a state (R28, R29, R45); the spec has no fetch fault (R91). Safe (log
  entry 8). -/
  | noWordAtPc
  /-- Raised by `construct` alone, on a program whose length is not a multiple of 4 (R240, D13: the spec's own refusal) or
  not below 2^64 (DESIGN CHOICE, log entry 18: R240 bounds its input and says nothing of a longer one). Safe. -/
  | programLength
  deriving DecidableEq, Repr

/-- The engine status (R45). `completed` and `faulted` are final. -/
inductive Status where
  | running
  | completed
  | faulted (f : Fault)
  deriving DecidableEq, Repr

/-- The 64-bit cells of the CSR File, by address; an unlisted address holds 0 (log entries 4 and 7). -/
abbrev CsrCells := List (Nat × Word)

/-- The bytes of Memory, by offset from BASE (R60); an unlisted offset holds 0x00 (log entries 5 and 7). -/
abbrev Memory := List Host.Cell

/-- The whole state (R20), and the parameter X0_HARDWIRED the engine was constructed with (R6, R23; log entry 2). -/
structure State where
  /-- `X[0..31]`, the general registers (R21). -/
  regs : Vector Word 32
  /-- `PC`, the byte offset in the instruction store of the instruction being executed (R26). -/
  pc : Word
  /-- `C[a]` for a in 0..4095, a ≠ 0x104, the CSR File (R31, R35). -/
  csrs : CsrCells
  /-- `MEM[0..CAP-1]` (R60). -/
  mem : Memory
  /-- `IMEM[0..L-1]`, the instruction store; L is its length (R43). -/
  imem : List Byte
  /-- `STATUS` (R45). -/
  status : Status
  /-- X0_HARDWIRED (R23). -/
  x0Hardwired : Bool
  deriving DecidableEq, Repr

/-- The state right after reset, that is after the construction (R241) of an engine with the empty program (L = 0, so
STATUS is Completed: R51, D23) and with the reference values of D10 to D12. DESIGN CHOICE, unsafe: the general
registers (log entry 3), the CSR cells (log entry 4), the Memory bytes (log entry 5) and the program (log entry 6) are
arguments the spec leaves to the caller. PC = 0 is R47's; `x0Hardwired` is R23's decided value. -/
def State.reset : State :=
  { regs := Vector.replicate 32 0
    pc := 0
    csrs := []
    mem := []
    imem := []
    status := .completed
    x0Hardwired := Config.x0Hardwired }

end Sys2Proof.Machine
end

