-- ==== Sys2Proof/Machine/Ops.lean ====
section
/-! DEFINITION. The named operations every meaning goes through: cells held sparsely, general registers (R10, R23),
Memory and Bus (R61 to R66), raising a fault (R206), fetch and the advance of the PC (R91, R107). -/

namespace Sys2Proof.Machine

/-- What a program's cells hold at a key; an unlisted key holds 0. -/
def readCell {n : Nat} : List (Nat × BitVec n) → Nat → BitVec n
  | [], _ => 0
  | (a, v) :: rest, k => if a = k then v else readCell rest k

/-- The cells with `v` at the key `k`, in canonical form again: keys rising, no entry 0. -/
def writeCell {n : Nat} : List (Nat × BitVec n) → Nat → BitVec n → List (Nat × BitVec n)
  | [], k, v => if v = 0 then [] else [(k, v)]
  | (a, x) :: rest, k, v =>
    if k < a then (if v = 0 then (a, x) :: rest else (k, v) :: (a, x) :: rest)
    else if k = a then (if v = 0 then rest else (k, v) :: rest)
    else (a, x) :: writeCell rest k v

/-- The canonical form: keys strictly rising, and no entry equal to what an unlisted key reads as. -/
abbrev canonical {n : Nat} (m : List (Nat × BitVec n)) : Prop :=
  m.Pairwise (fun c d => c.1 < d.1) ∧ ∀ c ∈ m, c.2 ≠ 0

/-- Memory in canonical form, every offset below CAP (R60). -/
abbrev Memory.wf (m : Memory) : Prop := canonical m ∧ ∀ c ∈ m, c.1 < Config.cap

/-- The CSR File in canonical form: addresses below 4096, none of them 0x104, which has no storage (R31, R35). -/
abbrev CsrCells.wf (m : CsrCells) : Prop :=
  canonical m ∧ ∀ c ∈ m, c.1 < Config.ncsr ∧ c.1 ≠ Config.sie

/-- `x[i]` (R10): 0 for x0 where X0_HARDWIRED, else the cell. -/
def State.readReg (s : State) (i : RegIdx) : Word :=
  if s.x0Hardwired = true ∧ i = 0 then 0 else s.regs[i.toNat]'i.isLt

/-- `x[i] <- v` (R10): nothing for x0 where X0_HARDWIRED, else the cell is written. -/
def State.writeReg (s : State) (i : RegIdx) (v : Word) : State :=
  if s.x0Hardwired = true ∧ i = 0 then s else { s with regs := s.regs.set i.toNat v i.isLt }

/-- The number of bytes of an access (R72). -/
def Width.bytes : Width → Nat
  | .byte => 1
  | .half => 2
  | .word => 4
  | .dword => 8

/-- The `n` bytes of Memory at offset `o`, composed little-endian, the bits above them zero (R61, R68). -/
def loadBytes (m : Memory) (o : Nat) : Nat → Word
  | 0 => 0
  | n + 1 => loadBytes m o n ||| ((readCell m (o + n)).setWidth 64 <<< (8 * n))

/-- Memory with the low `n` bytes of `v` at offset `o`: MEM[o+i] := v[8i+7 : 8i] for i below `n` (R62, R68). -/
def storeBytes (m : Memory) (o : Nat) (v : Word) : Nat → Memory
  | 0 => m
  | n + 1 => writeCell (storeBytes m o v n) (o + n) (v.extractLsb' (8 * n) 8)

/-- `MemoryLoad(o, w)` (R61): the bound is checked, on unbounded integers (R66), before any byte is read. -/
def memoryLoad (s : State) (o : Nat) (w : Width) : Except Fault Word :=
  if o + w.bytes > Config.cap then .error (.memoryFault (BitVec.ofNat 64 (o + Config.base)) w)
  else .ok (loadBytes s.mem o w.bytes)

/-- `MemoryStore(o, w, v)` (R62): the bound is checked before any byte is written. -/
def memoryStore (s : State) (o : Nat) (w : Width) (v : Word) : Except Fault State :=
  if o + w.bytes > Config.cap then .error (.memoryFault (BitVec.ofNat 64 (o + Config.base)) w)
  else .ok { s with mem := storeBytes s.mem o v w.bytes }

/-- `MemRead(a, n)`, the Bus load (R63). -/
def memRead (s : State) (a : Word) (w : Width) : Except Fault Word :=
  if a.toNat < Config.base then .error (.unmappedAddress a w)
  else memoryLoad s (a.toNat - Config.base) w

/-- `MemWrite(a, n, v)`, the Bus store (R64). -/
def memWrite (s : State) (a : Word) (w : Width) (v : Word) : Except Fault State :=
  if a.toNat < Config.base then .error (.unmappedAddress a w)
  else memoryStore s (a.toNat - Config.base) w v

/-- `raise F(info)` within a step, the engine's whole way of taking an exception (R12, R107, R206): STATUS becomes
Faulted, and registers, PC, CSRs, Memory and instruction store stay as they were before the instruction. There is no
trap entry (R208) and no return from a fault (R209), so no operation stands beside this one. -/
def State.raise (s : State) (f : Fault) : State := { s with status := .faulted f }

/-- The instruction-store bytes from the PC on (R26, R91). -/
def State.bytesAtPc (s : State) : List Byte := s.imem.drop s.pc.toNat

/-- AdvancePC (R107): PC <- PC + 4, and STATUS := Completed when PC >= L. -/
def State.advance (s : State) : State :=
  { s with
    pc := s.pc + BitVec.ofNat 64 Config.ilenBytes
    status := if s.imem.length ≤ (s.pc + BitVec.ofNat 64 Config.ilenBytes).toNat then .completed else s.status }

/-- The end of a step whose instruction has executed (R107): the PC advances unless the instruction raised a fault. -/
def State.afterExecute (s : State) : State :=
  match s.status with
  | .running => s.advance
  | .completed => s
  | .faulted _ => s

/-- The outcome of a step from the outcome of its instruction. -/
def finishStep : Host.Outcome State Fault Refusal → Host.Outcome State Fault Refusal
  | .next s => .next s.afterExecute
  | .fault f => .fault f
  | .refused r => .refused r

/-- An instruction store with the bytes `bs` at offset `p`, filled with zero bytes up to `p` where it is shorter. -/
def placeBytes (imem : List Byte) (p : Nat) (bs : List Byte) : List Byte :=
  imem.take p ++ List.replicate (p - imem.length) 0 ++ bs ++ imem.drop (p + bs.length)

end Sys2Proof.Machine
end

