-- ==== Sys2Proof/Machine/Flags.lean ====
section
/-! DEFINITION. Arithmetic. The engine has NO flags, condition codes or predicate registers (R30): no instruction
computes a carry or an overflow, and State has no field for one. Its only arithmetic is `+64` (R182). -/

namespace Sys2Proof.Machine

/-- `+64`: addition modulo 2^64 on 64-bit patterns, with no overflow, carry or trap (R8, R182). -/
def add64 (a b : Word) : Word := a + b

end Sys2Proof.Machine
end

