-- ==== Sys2Proof/Machine/Operands.lean ====
section
/-! DEFINITION. The operand forms: the one addressing mode, base plus sign-extended offset (R130, R160), the extension
of a loaded value (R9), and the load and store operations the instructions share (R130, R160). -/

namespace Sys2Proof.Machine

/-- `sext_N(v)`: the low N bits of v, bit N-1 copied into the bits above (R9). -/
def sext (n : Nat) (v : Word) : Word := (v.setWidth n).signExtend 64

/-- `zext_N(v)`: the low N bits of v, the bits above zero (R9). -/
def zext (n : Nat) (v : Word) : Word := (v.setWidth n).setWidth 64

/-- The effective address `x[rs1] +64 imm`, modulo 2^64 (R130, R160, D4). -/
def effectiveAddress (s : State) (rs1 : RegIdx) (imm : Word) : Word := add64 (s.readReg rs1) imm

/-- Every LOAD (R130): the base is read, the access is made, and only then rd is written with the extended value; a
fault of the access leaves rd unwritten (R12, R206). -/
def load (w : Width) (extend : Word → Word) (rd rs1 : RegIdx) (imm : Word) (s : State) :
    Host.Outcome State Fault Refusal :=
  match memRead s (effectiveAddress s rs1 imm) w with
  | .error f => .next (s.raise f)
  | .ok raw => .next (s.writeReg rd (extend raw))

/-- Every STORE (R160): base and value are read, and the access writes the low bytes of the value or faults with no
byte written. -/
def store (w : Width) (rs1 rs2 : RegIdx) (imm : Word) (s : State) : Host.Outcome State Fault Refusal :=
  match memWrite s (effectiveAddress s rs1 imm) w (s.readReg rs2) with
  | .error f => .next (s.raise f)
  | .ok s' => .next s'

end Sys2Proof.Machine
end

