-- ==== Sys2Proof/Machine/Load.lean ====
section
/-! DEFINITION. The LOAD family, opcode 0x03 (R130 to R138). -/

namespace Sys2Proof.Machine

/-- LB (R131): `x[rd] <- sext_8(MemRead(x[rs1] +64 imm_i, 1))`. -/
def execLb (rd rs1 : RegIdx) (imm : Word) (s : State) : Host.Outcome State Fault Refusal :=
  load .byte (sext 8) rd rs1 imm s

/-- LH (R132): `x[rd] <- sext_16(MemRead(x[rs1] +64 imm_i, 2))`. -/
def execLh (rd rs1 : RegIdx) (imm : Word) (s : State) : Host.Outcome State Fault Refusal :=
  load .half (sext 16) rd rs1 imm s

/-- LW (R133): `x[rd] <- sext_32(MemRead(x[rs1] +64 imm_i, 4))`. -/
def execLw (rd rs1 : RegIdx) (imm : Word) (s : State) : Host.Outcome State Fault Refusal :=
  load .word (sext 32) rd rs1 imm s

/-- LD (R134): `x[rd] <- MemRead(x[rs1] +64 imm_i, 8)`, no extension. -/
def execLd (rd rs1 : RegIdx) (imm : Word) (s : State) : Host.Outcome State Fault Refusal :=
  load .dword (fun raw => raw) rd rs1 imm s

/-- LBU (R135): `x[rd] <- zext_8(MemRead(x[rs1] +64 imm_i, 1))`. -/
def execLbu (rd rs1 : RegIdx) (imm : Word) (s : State) : Host.Outcome State Fault Refusal :=
  load .byte (zext 8) rd rs1 imm s

/-- LHU (R136): `x[rd] <- zext_16(MemRead(x[rs1] +64 imm_i, 2))`. -/
def execLhu (rd rs1 : RegIdx) (imm : Word) (s : State) : Host.Outcome State Fault Refusal :=
  load .half (zext 16) rd rs1 imm s

/-- LWU (R137): `x[rd] <- zext_32(MemRead(x[rs1] +64 imm_i, 4))`. -/
def execLwu (rd rs1 : RegIdx) (imm : Word) (s : State) : Host.Outcome State Fault Refusal :=
  load .word (zext 32) rd rs1 imm s

end Sys2Proof.Machine
end

