-- ==== Sys2Proof/Machine/Op.lean ====
section
/-! DEFINITION. The OP family, opcode 0x33: ADD (R180). -/

namespace Sys2Proof.Machine

/-- ADD (R180): `x[rd] <- x[rs1] +64 x[rs2]`, both sources read before rd is written. -/
def execAdd (rd rs1 rs2 : RegIdx) (s : State) : Host.Outcome State Fault Refusal :=
  .next (s.writeReg rd (add64 (s.readReg rs1) (s.readReg rs2)))

end Sys2Proof.Machine
end

