-- ==== Sys2Proof/Machine/OpImm.lean ====
section
/-! DEFINITION. The OP-IMM family, opcode 0x13: ADDI (R150). -/

namespace Sys2Proof.Machine

/-- ADDI (R150): `x[rd] <- x[rs1] +64 imm_i`; it raises nothing and sets no flag. -/
def execAddi (rd rs1 : RegIdx) (imm : Word) (s : State) : Host.Outcome State Fault Refusal :=
  .next (s.writeReg rd (add64 (s.readReg rs1) imm))

end Sys2Proof.Machine
end

