-- ==== Sys2Proof/Machine/Store.lean ====
section
/-! DEFINITION. The STORE family, opcode 0x23 (R160 to R165). -/

namespace Sys2Proof.Machine

/-- SB (R161): `MemWrite(x[rs1] +64 imm_s, 1, x[rs2])`. -/
def execSb (rs1 rs2 : RegIdx) (imm : Word) (s : State) : Host.Outcome State Fault Refusal :=
  store .byte rs1 rs2 imm s

/-- SH (R162): `MemWrite(x[rs1] +64 imm_s, 2, x[rs2])`. -/
def execSh (rs1 rs2 : RegIdx) (imm : Word) (s : State) : Host.Outcome State Fault Refusal :=
  store .half rs1 rs2 imm s

/-- SW (R163): `MemWrite(x[rs1] +64 imm_s, 4, x[rs2])`. -/
def execSw (rs1 rs2 : RegIdx) (imm : Word) (s : State) : Host.Outcome State Fault Refusal :=
  store .word rs1 rs2 imm s

/-- SD (R164): `MemWrite(x[rs1] +64 imm_s, 8, x[rs2])`. -/
def execSd (rs1 rs2 : RegIdx) (imm : Word) (s : State) : Host.Outcome State Fault Refusal :=
  store .dword rs1 rs2 imm s

end Sys2Proof.Machine
end

