-- ==== Sys2Proof/Machine/Step.lean ====
section
/-! DEFINITION. The step cycle (R107), and how an instruction is placed where the next step fetches it. -/

namespace Sys2Proof.Machine

/-- `Step()` (R107): Fetch, Decode, Execute, AdvancePC while STATUS is Running; nothing when it is not (R45, D21). A
fault makes STATUS Faulted in a next state (R206; log entry 1). -/
def step (s : State) : Host.Outcome State Fault Refusal :=
  match s.status with
  | .running =>
    match decodeBytes s.bytesAtPc with
    | .ok (i, _) => finishStep (exec i s)
    | .error (.illegalInstruction w) => .next (s.raise (.illegalInstruction w))
    | .error .truncated => .refused .noWordAtPc
  | .completed => .next s
  | .faulted _ => .next s

/-- `s` with an opcode-table word placed in the instruction store at the PC and STATUS Running, so that the next step
runs it. It stands for the host's construction of an engine with that program (R240, R241; log entry 6). -/
def State.withFetchWord (s : State) (nbits w : Nat) : State :=
  { s with
    imem := placeBytes s.imem s.pc.toNat (bytesOfWord (tableWord nbits w))
    status := .running }

end Sys2Proof.Machine
end

