-- ==== Sys2Proof/Machine/HostPort.lean ====
section
/-! DEFINITION. The host interface (R243): construction (R240, R241), inspection (R80), the CSR port (R33, R34) and
Run (R244). `Step` is `Machine.step`. The host calls these one at a time and never within a step (D20; log entry 10),
so each is a function of the state between steps. -/

namespace Sys2Proof.Machine

/-- The CSR File that holds `init` (R48): what `init` lists for an address below 4096 other than 0x104, whose supplied
value is ignored (D16); the first entry of an address counts and an unlisted address holds 0 (log entry 9). -/
def constructCsrs (init : CsrCells) : CsrCells :=
  init.foldr (fun c m => if c.1 < Config.ncsr ∧ c.1 ≠ Config.sie then writeCell m c.1 c.2 else m) []

/-- The Memory that holds `init` (R49): what `init` lists for an offset below CAP; the first entry of an offset counts
and an unlisted offset holds 0x00 (log entry 9). -/
def constructMem (init : Memory) : Memory :=
  init.foldr (fun c m => if c.1 < Config.cap then writeCell m c.1 c.2 else m) []

/-- `Construct(PROG, INIT_X, INIT_CSR, INIT_MEM)` with the parameter X0_HARDWIRED (R240, R241): refused when the
program's length is not a multiple of 4 (D13), else the whole state set in one action. DESIGN CHOICE, safe (log entry
18): a program of 2^64 bytes or more, which R240's bound on PROG shuts out and whose fate no rule states, is refused
too. -/
def construct (prog : List Byte) (initX : Vector Word 32) (initCsr : CsrCells) (initMem : Memory)
    (x0Hardwired : Bool) : Host.Outcome State Fault Refusal :=
  if prog.length % 4 = 0 ∧ prog.length < 2 ^ 64 then
    .next
      { regs := initX
        pc := 0
        csrs := constructCsrs initCsr
        mem := constructMem initMem
        imem := prog
        status := if prog.length = 0 then .completed else .running
        x0Hardwired := x0Hardwired }
  else .refused .programLength

/-- `CsrRead(a)` (R33): SIE is the view MIE & MIDELEG, every other address below 4096 its cell; no side effect. -/
def csrRead (s : State) (a : Nat) : Except Fault Word :=
  if a ≥ Config.ncsr then .error (.csrRangeFault a)
  else if a = Config.sie then .ok (readCell s.csrs Config.mie &&& readCell s.csrs Config.mideleg)
  else .ok (readCell s.csrs a)

/-- `CsrWrite(a, v)` (R34): a write to SIE changes only the MIE bits that MIDELEG delegates; a write to any other
address below 4096 sets its cell. -/
def csrWrite (s : State) (a : Nat) (v : Word) : Except Fault State :=
  if a ≥ Config.ncsr then .error (.csrRangeFault a)
  else if a = Config.sie then
    .ok { s with
      csrs := writeCell s.csrs Config.mie
        ((readCell s.csrs Config.mie &&& ~~~(readCell s.csrs Config.mideleg)) |||
          (v &&& readCell s.csrs Config.mideleg)) }
  else .ok { s with csrs := writeCell s.csrs a v }

/-- The state after a CSR port call (R38, D24): a call that faults changes nothing, not even STATUS. -/
def afterCsrWrite (s : State) (a : Nat) (v : Word) : State :=
  match csrWrite s a v with
  | .ok s' => s'
  | .error _ => s

/-- `InspectX(i)` (R243): `x[i]` by R10, so 0 for x0 where X0_HARDWIRED. -/
def inspectX (s : State) (i : RegIdx) : Word := s.readReg i

/-- `InspectPC()` (R243). -/
def inspectPc (s : State) : Word := s.pc

/-- `InspectStatus()` (R243). -/
def inspectStatus (s : State) : Status := s.status

/-- `InspectMem(o)` for o in 0..CAP-1 (R80, R243); no other offset names a byte. -/
def inspectMem (s : State) (o : Nat) : Option Byte :=
  if o < Config.cap then some (readCell s.mem o) else none

/-- At most `k` steps, ending when STATUS is no longer Running (R244). -/
def runSteps : Nat → State → Host.Outcome State Fault Refusal
  | 0, s => .next s
  | k + 1, s =>
    match s.status with
    | .running =>
      match step s with
      | .next s' => runSteps k s'
      | .fault f => .fault f
      | .refused r => .refused r
    | .completed => .next s
    | .faulted _ => .next s

/-- `Run()` (R244): steps while STATUS is Running. At most L/4 steps are needed (R245), which bounds the loop (log
entry 16). -/
def run (s : State) : Host.Outcome State Fault Refusal := runSteps (s.imem.length / 4) s

end Sys2Proof.Machine
end

