-- ==== Sys2Proof/Machine/Assembly.lean ====
section
/-! DEFINITION. The assembler syntax (R14, R104 to R106): immediates, operand forms, and the three pseudo-instructions.
Syntax only: nothing here changes what an instruction does (D26; log entry 15). -/

namespace Sys2Proof.Machine

/-- An immediate written as a number assembles when it lies in [-2048, 2047] (R104). -/
def asmNumber (n : Int) : Option Word :=
  if -2048 ≤ n ∧ n ≤ 2047 then some (BitVec.ofInt 64 n) else none

/-- An immediate written as a 12-bit pattern assembles when it lies in [0x000, 0xFFF]; the pattern 0xFFF means -1
(R104). -/
def asmPattern (p : Nat) : Option Word :=
  if p ≤ 0xFFF then some (sext12 (BitVec.ofNat 12 p)) else none

/-- A register operand, `x0` to `x31` (R104). -/
def asmReg (i : RegIdx) : String := "x" ++ toString i.toNat

/-- The form `Lx rd,imm(rs1)` or `Sx rs2,imm(rs1)` (R105). -/
def asmMemory (mnemonic : String) (r rs1 : RegIdx) (imm : Word) : String :=
  mnemonic ++ " " ++ asmReg r ++ "," ++ toString imm.toInt ++ "(" ++ asmReg rs1 ++ ")"

/-- An instruction in the spec's assembly syntax (R14, R105). -/
def asmText : Instr → String
  | .lb rd rs1 imm => asmMemory "LB" rd rs1 imm
  | .lh rd rs1 imm => asmMemory "LH" rd rs1 imm
  | .lw rd rs1 imm => asmMemory "LW" rd rs1 imm
  | .ld rd rs1 imm => asmMemory "LD" rd rs1 imm
  | .lbu rd rs1 imm => asmMemory "LBU" rd rs1 imm
  | .lhu rd rs1 imm => asmMemory "LHU" rd rs1 imm
  | .lwu rd rs1 imm => asmMemory "LWU" rd rs1 imm
  | .addi rd rs1 imm => "ADDI " ++ asmReg rd ++ "," ++ asmReg rs1 ++ "," ++ toString imm.toInt
  | .sb rs1 rs2 imm => asmMemory "SB" rs2 rs1 imm
  | .sh rs1 rs2 imm => asmMemory "SH" rs2 rs1 imm
  | .sw rs1 rs2 imm => asmMemory "SW" rs2 rs1 imm
  | .sd rs1 rs2 imm => asmMemory "SD" rs2 rs1 imm
  | .add rd rs1 rs2 => "ADD " ++ asmReg rd ++ "," ++ asmReg rs1 ++ "," ++ asmReg rs2

/-- `nop` expands to `ADDI x0,x0,0` (R106). -/
def asmNop : Instr := .addi 0 0 0

/-- `mv rd,rs` expands to `ADDI rd,rs,0` (R106). -/
def asmMv (rd rs : RegIdx) : Instr := .addi rd rs 0

/-- `li rd,imm` expands to `ADDI rd,x0,imm` when imm lies in [-2048, 2047]; a larger one does not assemble (R106). -/
def asmLi (rd : RegIdx) (n : Int) : Option Instr := (asmNumber n).map (fun imm => .addi rd 0 imm)

end Sys2Proof.Machine
end

