-- ==== Sys2Proof/Safety.lean ====
section
/-! DEFINITION. The terms claims are stated in: addresses that lie in the window (R67), the byte at a Bus address, the
kind of a fault that a step may raise (R200, R210), which accesses an instruction makes (R72), and the invariant of
the states the engine can be in (R20, R28, R29, R45). -/

namespace Sys2Proof.Machine

/-- All `n` bytes at the Bus address `a` lie in [BASE, BASE + CAP) (R7, R67). -/
abbrev mapped (a : Word) (n : Nat) : Prop :=
  Config.base ≤ a.toNat ∧ a.toNat + n ≤ Config.base + Config.cap

/-- The Memory byte at the Bus address `a` of the window (R63, R80). -/
def byteAt (s : State) (a : Word) : Byte := readCell s.mem (a.toNat - Config.base)

/-- The width, base register and offset of an instruction's Memory access; none for ADDI and ADD (R72). -/
def access : Instr → Option (Width × RegIdx × Word)
  | .lb _ rs1 imm => some (.byte, rs1, imm)
  | .lh _ rs1 imm => some (.half, rs1, imm)
  | .lw _ rs1 imm => some (.word, rs1, imm)
  | .ld _ rs1 imm => some (.dword, rs1, imm)
  | .lbu _ rs1 imm => some (.byte, rs1, imm)
  | .lhu _ rs1 imm => some (.half, rs1, imm)
  | .lwu _ rs1 imm => some (.word, rs1, imm)
  | .addi _ _ _ => none
  | .sb rs1 _ imm => some (.byte, rs1, imm)
  | .sh rs1 _ imm => some (.half, rs1, imm)
  | .sw rs1 _ imm => some (.word, rs1, imm)
  | .sd rs1 _ imm => some (.dword, rs1, imm)
  | .add _ _ _ => none

/-- The word is one of the 13 selections of the dispatch table, by the numbers in its opcode, funct3 and funct7 fields
(R92, R98). -/
abbrev isTableWord (w : InstrWord) : Prop :=
  (w.toNat % 128 = 0x03 ∧ w.toNat / 4096 % 8 ≤ 6) ∨
  (w.toNat % 128 = 0x13 ∧ w.toNat / 4096 % 8 = 0) ∨
  (w.toNat % 128 = 0x23 ∧ w.toNat / 4096 % 8 ≤ 3) ∨
  (w.toNat % 128 = 0x33 ∧ w.toNat / 4096 % 8 = 0 ∧ w.toNat / 33554432 = 0)

/-- What a rule of the LOAD family says of its instruction (R130 to R137): how it is written (R105), character by
character, the immediate in decimal (log entry 15); which words decode to it, with which operands; that with all bytes in the window it answers the state in which rd has been written with `value`; and
which of the two faults it raises otherwise, with nothing else changed (R12). The 64-bit wrap of the address is the
spec's decision D4, a fault's information D8, and that a fault writes nothing D7 (log entry 11). -/
def LoadRule (name : String) (mk : RegIdx → RegIdx → Word → Instr) (matchValue : InstrWord) (w : Width) (n : Nat)
    (value : State → Word → Word) : Prop :=
  (∀ (rd rs1 : RegIdx) (imm : Word), asmText (mk rd rs1 imm) =
    name ++ " " ++ ("x" ++ toString rd.toNat) ++ "," ++ toString imm.toInt ++ "(" ++ ("x" ++ toString rs1.toNat) ++
      ")") ∧
  (∀ iw : InstrWord, iw &&& 0x0000707F#32 = matchValue →
    decode iw = .ok (mk (iw.extractLsb' 7 5) (iw.extractLsb' 15 5) ((iw.extractLsb' 20 12).signExtend 64))) ∧
  (∀ (rd rs1 : RegIdx) (imm : Word) (s : State), mapped (s.readReg rs1 + imm) n →
    exec (mk rd rs1 imm) s = .next (s.writeReg rd (value s (s.readReg rs1 + imm)))) ∧
  (∀ (rd rs1 : RegIdx) (imm : Word) (s : State), (s.readReg rs1 + imm).toNat < Config.base →
    exec (mk rd rs1 imm) s =
      .next { s with status := .faulted (.unmappedAddress (s.readReg rs1 + imm) w) }) ∧
  (∀ (rd rs1 : RegIdx) (imm : Word) (s : State), Config.base ≤ (s.readReg rs1 + imm).toNat →
    (s.readReg rs1 + imm).toNat - Config.base + n > Config.cap →
    exec (mk rd rs1 imm) s =
      .next { s with status := .faulted (.memoryFault (s.readReg rs1 + imm) w) })

/-- What a rule of the STORE family says of its instruction (R160 to R164): how it is written (R105), character by
character, the immediate in decimal (log entry 15); which words decode to it, with which operands; that with all bytes in the window it answers a state that differs in Memory alone, where byte j of the
stored bytes is byte j of x[rs2] and every other byte is as before; and which of the two faults it raises otherwise,
with nothing else changed (R12). The 64-bit wrap of the address is the spec's decision D4, a fault's information D8, and
that a fault writes nothing D6 and D7 (log entry 11). -/
def StoreRule (name : String) (mk : RegIdx → RegIdx → Word → Instr) (matchValue : InstrWord) (w : Width) (n : Nat) :
    Prop :=
  (∀ (rs1 rs2 : RegIdx) (imm : Word), asmText (mk rs1 rs2 imm) =
    name ++ " " ++ ("x" ++ toString rs2.toNat) ++ "," ++ toString imm.toInt ++ "(" ++ ("x" ++ toString rs1.toNat) ++
      ")") ∧
  (∀ iw : InstrWord, iw &&& 0x0000707F#32 = matchValue →
    decode iw = .ok (mk (iw.extractLsb' 15 5) (iw.extractLsb' 20 5)
      ((iw.extractLsb' 25 7 ++ iw.extractLsb' 7 5).signExtend 64))) ∧
  (∀ (rs1 rs2 : RegIdx) (imm : Word) (s : State), s.mem.wf → mapped (s.readReg rs1 + imm) n →
    ∃ t, exec (mk rs1 rs2 imm) s = .next t ∧ t = { s with mem := t.mem } ∧ t.mem.wf ∧
      (∀ j < n, readCell t.mem ((s.readReg rs1 + imm).toNat - Config.base + j) =
        (s.readReg rs2).extractLsb' (8 * j) 8) ∧
      ∀ o, (o < (s.readReg rs1 + imm).toNat - Config.base ∨
          (s.readReg rs1 + imm).toNat - Config.base + n ≤ o) → readCell t.mem o = readCell s.mem o) ∧
  (∀ (rs1 rs2 : RegIdx) (imm : Word) (s : State), (s.readReg rs1 + imm).toNat < Config.base →
    exec (mk rs1 rs2 imm) s =
      .next { s with status := .faulted (.unmappedAddress (s.readReg rs1 + imm) w) }) ∧
  (∀ (rs1 rs2 : RegIdx) (imm : Word) (s : State), Config.base ≤ (s.readReg rs1 + imm).toNat →
    (s.readReg rs1 + imm).toNat - Config.base + n > Config.cap →
    exec (mk rs1 rs2 imm) s =
      .next { s with status := .faulted (.memoryFault (s.readReg rs1 + imm) w) })

/-- The engine runs or has completed: no fault stopped it (R45). -/
def State.faultFree (s : State) : Prop :=
  match s.status with
  | .running => True
  | .completed => True
  | .faulted _ => False

/-- STATUS agrees with the PC (R45): Running only while PC < L, Completed only with PC = L, and Faulted at an
instruction of the program, never with the CSR port's fault (R203, R206). -/
def State.statusAgrees (s : State) : Prop :=
  match s.status with
  | .running => s.pc.toNat < s.imem.length
  | .completed => s.pc.toNat = s.imem.length
  | .faulted (.csrRangeFault _) => False
  | .faulted _ => s.pc.toNat < s.imem.length

/-- What holds of every state of an engine: a program of whole words, shorter than 2^64 (R240); an aligned PC (R28);
STATUS in agreement with the PC (R45); Memory and CSR File in canonical form over the cells that exist (R20, R60,
R35). -/
structure State.Inv (s : State) : Prop where
  wholeWords : s.imem.length % 4 = 0
  shortEnough : s.imem.length < 2 ^ 64
  pcAligned : s.pc.toNat % 4 = 0
  status : s.statusAgrees
  memory : s.mem.wf
  csrFile : s.csrs.wf

end Sys2Proof.Machine
end

