-- ==== Sys2Proof/Certificates/Slice0/Obligations.lean ====
section
/-! DEFINITION. The statements for the provers, each from the numbered rules its docstring names. -/

open Sys2Proof Sys2Proof.Machine

/-! ### Encoding -/

/-- Words the spec gives in its rules decode to the instructions it names beside them: LB (R131), LWU (R137), ADDI
(R150), SW with a negative offset (R163) and ADD (R180). -/
def Obligations.SpecWordsDecode : Prop :=
  decode 0x00008183 = .ok (.lb 3 1 0) ∧
  decode 0x0000E203 = .ok (.lwu 4 1 0) ∧
  decode 0xFFF00093 = .ok (.addi 1 0 (-1)) ∧
  decode 0xFE112823 = .ok (.sw 2 1 (-16)) ∧
  decode 0x00108133 = .ok (.add 2 1 1)

/-- Decoding the word of a well-formed instruction gives it back, with every operand at every value its field admits
(R93 to R99). -/
def Obligations.DecodeOfEncode : Prop :=
  ∀ i : Instr, i.WellFormed → decode (encode i) = .ok i

/-- A word that decodes is the word of the well-formed instruction it decodes to: no bit is ignored and no two words
decode to the same instruction with the same operands (R99). -/
def Obligations.EncodeOfDecode : Prop :=
  ∀ (w : InstrWord) (i : Instr), decode w = .ok i → i.WellFormed ∧ encode i = w

/-- Exactly the 13 selections of the dispatch table decode, and every other word is IllegalInstruction(w) (R98, R99). -/
def Obligations.ExactlyTableWordsDecode : Prop :=
  ∀ w : InstrWord,
    (isTableWord w → ∃ i, decode w = .ok i) ∧
    (¬ isTableWord w → decode w = .error (.illegalInstruction w))

/-- A running engine whose PC stands at a word outside the dispatch table, the word of the four bytes IMEM[pc] to
IMEM[pc+3] with IMEM[pc] in its low bits (R91), faults with IllegalInstruction of that word, and nothing else changes
(R204, with R107's fault branch). That the unlisted funct3 and funct7 values are outside the table is
the spec's decision D2 and D3, and that a fault writes nothing its decision D7 (log entry 11). -/
def Obligations.IllegalWordHaltsEngine : Prop :=
  ∀ (s : State) (b0 b1 b2 b3 : Byte) (rest : List Byte), s.status = .running →
    s.imem.drop s.pc.toNat = b0 :: b1 :: b2 :: b3 :: rest → ¬ isTableWord (b3 ++ b2 ++ b1 ++ b0) →
    step s = .next { s with status := .faulted (.illegalInstruction (b3 ++ b2 ++ b1 ++ b0)) }

/-- sext_12 of i, read as a signed number, is i - 4096 if bit 11 of i is set, else i, with the rule's three values
(R96). -/
def Obligations.SignExtendTwelveBits : Prop :=
  (∀ i : BitVec 12, (sext12 i).toInt = if i.getLsbD 11 then (i.toNat : Int) - 4096 else (i.toNat : Int)) ∧
  sext12 0x7FF = 0x00000000000007FF ∧ sext12 0x800 = 0xFFFFFFFFFFFFF800 ∧ sext12 0xFFF = 0xFFFFFFFFFFFFFFFF

/-! ### The LOAD family -/

/-- LB: one byte, sign-extended (R131). -/
def Obligations.LbLoadsSignedByte : Prop :=
  LoadRule "LB" .lb 0x00000003 .byte 1 (fun s a => (byteAt s a).signExtend 64)

/-- LH: two bytes, the lower address in the low bits, sign-extended (R132). -/
def Obligations.LhLoadsSignedHalfword : Prop :=
  LoadRule "LH" .lh 0x00001003 .half 2 (fun s a => (byteAt s (a + 1) ++ byteAt s a).signExtend 64)

/-- LW: four bytes, the lowest address in the low bits, sign-extended (R133). -/
def Obligations.LwLoadsSignedWord : Prop :=
  LoadRule "LW" .lw 0x00002003 .word 4 (fun s a =>
    (byteAt s (a + 3) ++ byteAt s (a + 2) ++ byteAt s (a + 1) ++ byteAt s a).signExtend 64)

/-- LD: eight bytes, the lowest address in the low bits, no extension (R134). -/
def Obligations.LdLoadsDoubleword : Prop :=
  LoadRule "LD" .ld 0x00003003 .dword 8 (fun s a =>
    (byteAt s (a + 7) ++ byteAt s (a + 6) ++ byteAt s (a + 5) ++ byteAt s (a + 4) ++
      byteAt s (a + 3) ++ byteAt s (a + 2) ++ byteAt s (a + 1) ++ byteAt s a).setWidth 64)

/-- LBU: one byte, zero-extended (R135). -/
def Obligations.LbuLoadsUnsignedByte : Prop :=
  LoadRule "LBU" .lbu 0x00004003 .byte 1 (fun s a => (byteAt s a).setWidth 64)

/-- LHU: two bytes, zero-extended (R136). -/
def Obligations.LhuLoadsUnsignedHalfword : Prop :=
  LoadRule "LHU" .lhu 0x00005003 .half 2 (fun s a => (byteAt s (a + 1) ++ byteAt s a).setWidth 64)

/-- LWU: four bytes, zero-extended (R137). -/
def Obligations.LwuLoadsUnsignedWord : Prop :=
  LoadRule "LWU" .lwu 0x00006003 .word 4 (fun s a =>
    (byteAt s (a + 3) ++ byteAt s (a + 2) ++ byteAt s (a + 1) ++ byteAt s a).setWidth 64)

/-- A load that answers a next state changes no register but rd, no CSR, no Memory byte, nothing of the instruction
store and not the PC; STATUS changes only to a fault, and then no register changes either (R130, R138, R206). With
x0 hardwired a load to x0 changes no register. -/
def Obligations.LoadFrame : Prop :=
  ∀ (rd rs1 : RegIdx) (imm : Word) (i : Instr) (s t : State),
    i ∈ [Instr.lb rd rs1 imm, .lh rd rs1 imm, .lw rd rs1 imm, .ld rd rs1 imm, .lbu rd rs1 imm, .lhu rd rs1 imm,
      .lwu rd rs1 imm] →
    exec i s = .next t →
    (∀ j, j ≠ rd → t.readReg j = s.readReg j) ∧
    (s.x0Hardwired = true → rd = 0 → t.regs = s.regs) ∧
    (∀ o, readCell t.mem o = readCell s.mem o) ∧
    t.mem = s.mem ∧ t.csrs = s.csrs ∧ t.imem = s.imem ∧ t.pc = s.pc ∧ t.x0Hardwired = s.x0Hardwired ∧
    (t.status = s.status ∨ ∃ f, t = { s with status := .faulted f })

/-! ### ADDI and ADD -/

/-- ADDI: how it is written, with registers x0 to x31 and the immediate in decimal (log entry 15), the words that decode to it, and the 64-bit wrap-around sum written to rd, whatever the operands, with no
fault and nothing else changed (R150). That funct3 = 0 alone selects it is the spec's decision D2 (log entry 11). -/
def Obligations.AddiAddsImmediate : Prop :=
  (∀ (rd rs1 : RegIdx) (imm : Word), asmText (.addi rd rs1 imm) =
    "ADDI " ++ ("x" ++ toString rd.toNat) ++ "," ++ ("x" ++ toString rs1.toNat) ++ "," ++ toString imm.toInt) ∧
  (∀ w : InstrWord, w &&& 0x0000707F#32 = 0x00000013#32 →
    decode w = .ok (.addi (w.extractLsb' 7 5) (w.extractLsb' 15 5) ((w.extractLsb' 20 12).signExtend 64))) ∧
  ∀ (rd rs1 : RegIdx) (imm : Word) (s : State),
    exec (.addi rd rs1 imm) s =
      .next (s.writeReg rd (BitVec.ofNat 64 (((s.readReg rs1).toNat + imm.toNat) % 2 ^ 64)))

/-- ADD: how it is written, with registers x0 to x31, the words that decode to it, and the 64-bit wrap-around sum of both sources, as they were before the write,
written to rd, with no fault and nothing else changed (R180). That funct3 = 0 and funct7 = 0 alone select it is the spec's
decision D2 (log entry 11). -/
def Obligations.AddAddsRegisters : Prop :=
  (∀ rd rs1 rs2 : RegIdx, asmText (.add rd rs1 rs2) =
    "ADD " ++ ("x" ++ toString rd.toNat) ++ "," ++ ("x" ++ toString rs1.toNat) ++ "," ++
      ("x" ++ toString rs2.toNat)) ∧
  (∀ w : InstrWord, w &&& 0xFE00707F#32 = 0x00000033#32 →
    decode w = .ok (.add (w.extractLsb' 7 5) (w.extractLsb' 15 5) (w.extractLsb' 20 5))) ∧
  ∀ (rd rs1 rs2 : RegIdx) (s : State),
    exec (.add rd rs1 rs2) s =
      .next (s.writeReg rd (BitVec.ofNat 64 (((s.readReg rs1).toNat + (s.readReg rs2).toNat) % 2 ^ 64)))

/-- ADDI and ADD change no register but rd, and with x0 hardwired none where rd is x0; no CSR, no Memory byte, nothing
of the instruction store, not the PC and not STATUS (R150, R180, R30). -/
def Obligations.ArithmeticFrame : Prop :=
  ∀ (rd rs1 rs2 : RegIdx) (imm : Word) (i : Instr) (s t : State),
    i ∈ [Instr.addi rd rs1 imm, .add rd rs1 rs2] → exec i s = .next t →
    (∀ j, j ≠ rd → t.readReg j = s.readReg j) ∧
    (s.x0Hardwired = true → rd = 0 → t.regs = s.regs) ∧
    (∀ o, readCell t.mem o = readCell s.mem o) ∧
    t.mem = s.mem ∧ t.csrs = s.csrs ∧ t.imem = s.imem ∧ t.pc = s.pc ∧ t.x0Hardwired = s.x0Hardwired ∧
    t.status = s.status

/-! ### The STORE family -/

/-- SB: the low byte of x[rs2] (R161). -/
def Obligations.SbStoresByte : Prop := StoreRule "SB" .sb 0x00000023 .byte 1

/-- SH: the low two bytes of x[rs2] (R162). -/
def Obligations.ShStoresHalfword : Prop := StoreRule "SH" .sh 0x00001023 .half 2

/-- SW: the low four bytes of x[rs2] (R163). -/
def Obligations.SwStoresWord : Prop := StoreRule "SW" .sw 0x00002023 .word 4

/-- SD: the eight bytes of x[rs2] (R164). -/
def Obligations.SdStoresDoubleword : Prop := StoreRule "SD" .sd 0x00003023 .dword 8

/-- A store that answers a next state changes no register, no CSR, nothing of the instruction store and not the PC;
every Memory byte outside the bytes at its effective address reads as before; STATUS changes only to a fault, and then
no Memory byte changes at all (R160, R165, R206). -/
def Obligations.StoreFrame : Prop :=
  ∀ (rs1 rs2 : RegIdx) (imm : Word) (i : Instr) (n : Nat) (s t : State),
    (i, n) ∈ [(Instr.sb rs1 rs2 imm, 1), (.sh rs1 rs2 imm, 2), (.sw rs1 rs2 imm, 4), (.sd rs1 rs2 imm, 8)] →
    s.mem.wf → exec i s = .next t →
    (∀ j, t.readReg j = s.readReg j) ∧ t.regs = s.regs ∧
    t.csrs = s.csrs ∧ t.imem = s.imem ∧ t.pc = s.pc ∧ t.x0Hardwired = s.x0Hardwired ∧
    (t.status = s.status ∨ ∃ f, t = { s with status := .faulted f }) ∧
    ∀ a, effectiveAddress s rs1 imm = a →
      ∀ o, (Config.base + o < a.toNat ∨ a.toNat + n ≤ Config.base + o) → readCell t.mem o = readCell s.mem o

/-! ### Memory and Bus -/

/-- The address map (R67): an access below 0x8000_0000 is unmapped; one whose bytes fit below 0x8800_0000 reads or
writes Memory at offset a - 0x8000_0000, little-endian; every other is a memory fault. The spec derives the map from R61
to R64; the exact bound check is its decision D5 (log entry 11). -/
def Obligations.AddressMap : Prop :=
  ∀ (s : State) (a : Word) (w : Width) (v : Word), s.mem.wf →
    (a.toNat < 0x80000000 →
      memRead s a w = .error (.unmappedAddress a w) ∧ memWrite s a w v = .error (.unmappedAddress a w)) ∧
    (0x80000000 ≤ a.toNat → a.toNat + w.bytes ≤ 0x88000000 →
      (∃ r, memRead s a w = .ok r ∧
        (∀ j < w.bytes, r.extractLsb' (8 * j) 8 = readCell s.mem (a.toNat - 0x80000000 + j)) ∧
        ∀ j, 8 * w.bytes ≤ j → r.getLsbD j = false) ∧
      ∃ s', memWrite s a w v = .ok s' ∧
        ∀ j < w.bytes, readCell s'.mem (a.toNat - 0x80000000 + j) = v.extractLsb' (8 * j) 8) ∧
    (0x80000000 ≤ a.toNat → 0x88000000 < a.toNat + w.bytes →
      memRead s a w = .error (.memoryFault a w) ∧ memWrite s a w v = .error (.memoryFault a w))

/-- A load of w' bytes at a + k inside the w bytes just stored at a gives bytes k to k + w' - 1 of the stored value,
zero above them; with k = 0 and w' = w this is the source's round trip (R69). -/
def Obligations.LoadWithinStore : Prop :=
  ∀ (s s' : State) (a v : Word) (w w' : Width) (k : Nat), s.mem.wf → memWrite s a w v = .ok s' →
    k + w'.bytes ≤ w.bytes →
    memRead s' (a + BitVec.ofNat 64 k) w' = .ok ((v.extractLsb' (8 * k) (8 * w'.bytes)).setWidth 64)

/-! ### The CSR File -/

/-- The CSR read port (R33): out of range from 4096 on; 0x104 is MIE & MIDELEG; every other address its cell. -/
def Obligations.CsrReadPort : Prop :=
  ∀ (s : State) (a : Nat),
    (4096 ≤ a → csrRead s a = .error (.csrRangeFault a)) ∧
    csrRead s 0x104 = .ok (readCell s.csrs 0x304 &&& readCell s.csrs 0x303) ∧
    (a < 4096 → a ≠ 0x104 → csrRead s a = .ok (readCell s.csrs a))

/-- The CSR write port (R34), seen through the read port: a write to 0x104 changes the delegated bits of MIE alone and
leaves MIDELEG; a write elsewhere sets that cell alone, and the view at 0x104 sees the cells as they then are; no other
state changes; from 4096 on it is out of range. -/
def Obligations.CsrWritePort : Prop :=
  ∀ (s : State) (a : Nat) (v mie mideleg : Word), s.csrs.wf →
    csrRead s 0x304 = .ok mie → csrRead s 0x303 = .ok mideleg →
    (4096 ≤ a → csrWrite s a v = .error (.csrRangeFault a)) ∧
    (a < 4096 → ∃ s', csrWrite s a v = .ok s' ∧ s' = { s with csrs := s'.csrs } ∧ s'.csrs.wf ∧
      (a = 0x104 →
        csrRead s' 0x304 = .ok ((mie &&& ~~~mideleg) ||| (v &&& mideleg)) ∧
        csrRead s' 0x104 = .ok (v &&& mideleg) ∧
        ∀ b, b ≠ 0x304 → b ≠ 0x104 → csrRead s' b = csrRead s b) ∧
      (a ≠ 0x104 →
        csrRead s' a = .ok v ∧ (∀ b, b ≠ a → b ≠ 0x104 → csrRead s' b = csrRead s b) ∧
        ∀ m d, csrRead s' 0x304 = .ok m → csrRead s' 0x303 = .ok d → csrRead s' 0x104 = .ok (m &&& d)))

/-- The port faults exactly on addresses of 4096 or more, never reduces an address, and a call that faults changes no
state, not even STATUS (R203; R38 and R39 are the spec's decisions D24 and D15, log entry 11). -/
def Obligations.CsrRangeFaultChangesNothing : Prop :=
  ∀ (s : State) (a : Nat) (v : Word) (f : Fault),
    (csrRead s a = .error f ↔ 4096 ≤ a ∧ f = .csrRangeFault a) ∧
    (csrWrite s a v = .error f ↔ 4096 ≤ a ∧ f = .csrRangeFault a) ∧
    (4096 ≤ a → afterCsrWrite s a v = s)

/-- No CSR value affects a step, and no step changes a CSR (R37): two states that differ in their CSR cells alone
step alike, and each keeps its cells. R37 is the spec's derivation and its decision D18 (log entry 11). -/
def Obligations.CsrsAreInert : Prop :=
  ∀ (s t : State) (c : CsrCells), step s = .next t →
    t.csrs = s.csrs ∧ step { s with csrs := c } = .next { t with csrs := c }

/-! ### Construction and reset -/

/-- Construction sets the whole state from its inputs (R46 to R51, R241): every register, PC = 0, every CSR cell but
0x104, whose supplied value is ignored, every Memory byte, the instruction store, and STATUS. Of these PC = 0 is the
spec's decision D9, ignoring the value for 0x104 D16, and accepting L = 0 D23 (log entry 11). -/
def Obligations.ConstructSetsState : Prop :=
  ∀ (prog : List Byte) (initX : Vector Word 32) (initCsr : CsrCells) (initMem : Memory) (hw : Bool),
    prog.length % 4 = 0 → prog.length < 2 ^ 64 →
    ∃ s, construct prog initX initCsr initMem hw = .next s ∧
      s.regs = initX ∧ s.pc = 0 ∧ s.imem = prog ∧ s.x0Hardwired = hw ∧
      s.status = (if 0 < prog.length then .running else .completed) ∧
      (∀ a < 4096, a ≠ 0x104 → csrRead s a = .ok (readCell initCsr a)) ∧
      csrRead s 0x104 = .ok (readCell initCsr 0x304 &&& readCell initCsr 0x303) ∧
      ∀ o < 0x08000000, inspectMem s o = some (readCell initMem o)

/-- A program whose length is not a multiple of 4 is refused (R240; the spec's decision D13, log entry 11). One of 2^64
bytes or more is refused too: that is the model's choice (log entry 18), since R240 bounds its input below 2^64 and says
nothing of a longer one. -/
def Obligations.ConstructRefusesBadLength : Prop :=
  ∀ (prog : List Byte) (initX : Vector Word 32) (initCsr : CsrCells) (initMem : Memory) (hw : Bool),
    prog.length % 4 ≠ 0 ∨ 2 ^ 64 ≤ prog.length →
    construct prog initX initCsr initMem hw = .refused .programLength

/-- Every constructed engine meets the invariant (R28, R45, R240). -/
def Obligations.ConstructedMeetsInv : Prop :=
  ∀ (prog : List Byte) (initX : Vector Word 32) (initCsr : CsrCells) (initMem : Memory) (hw : Bool) (s : State),
    construct prog initX initCsr initMem hw = .next s → s.Inv

/-- The reset state is the construction with the empty program: PC = 0 and Completed, as R47 and R51 say of L = 0. That
the program is empty and that registers, CSR cells and Memory bytes are 0 is the model's choice (log entries 3 to 6). -/
def Obligations.ResetIsEmptyConstruction : Prop :=
  construct [] (Vector.replicate 32 0) [] [] true = .next State.reset ∧
  State.reset.pc = 0 ∧ State.reset.status = .completed

/-- The reset state meets the invariant. -/
def Obligations.ResetMeetsInv : Prop := State.reset.Inv

/-! ### Register x0 -/

/-- The general registers under both values of X0_HARDWIRED (R10, R23): the host and every instruction read the same
value; x1 to x31 read their cell; and a written register reads back what was written, every other register what it read
before, with nothing but registers changed. True: x0 reads 0 and a write to it is discarded, an instruction never changes
its cell, and nothing an instruction does depends on what that cell holds. False: x0 is a plain cell like x1 to x31,
which keeps what ADDI, ADD or any register write puts there. The parameter, and its value true for this hardware, are the
spec's decision D1 (log entry 2). -/
def Obligations.X0FollowsParameter : Prop :=
  ∀ s : State,
    (∀ k, inspectX s k = s.readReg k) ∧
    (∀ k, k ≠ 0 → inspectX s k = s.regs[k.toNat]'k.isLt) ∧
    (∀ j v, s.writeReg j v = { s with regs := (s.writeReg j v).regs }) ∧
    (s.x0Hardwired = true →
      inspectX s 0 = 0 ∧
      (∀ (j k : RegIdx) (v : Word), inspectX (s.writeReg j v) k = if k = j ∧ j ≠ 0 then v else inspectX s k) ∧
      ∀ i t, exec i s = .next t → inspectX t 0 = 0 ∧ t.regs[0] = s.regs[0] ∧
        ∀ v, exec i { s with regs := s.regs.set 0 v } = .next { t with regs := t.regs.set 0 v }) ∧
    (s.x0Hardwired = false →
      inspectX s 0 = s.regs[0] ∧
      (∀ (j k : RegIdx) (v : Word), inspectX (s.writeReg j v) k = if k = j then v else inspectX s k) ∧
      (∀ rs1 imm t, exec (.addi 0 rs1 imm) s = .next t → inspectX t 0 = s.readReg rs1 + imm) ∧
      ∀ rs1 rs2 t, exec (.add 0 rs1 rs2) s = .next t → inspectX t 0 = s.readReg rs1 + s.readReg rs2)

/-! ### The step cycle -/

/-- One step (R107). When the four bytes IMEM[pc] to IMEM[pc+3], IMEM[pc] in the low bits (R91), decode to an instruction, a step of a running engine executes it and
then, unless it faulted, adds 4 to the PC and completes at the end of the program. Executing changes neither the PC nor
the length of the program, so both are those of the state before. -/
def Obligations.StepRunsDecodedInstruction : Prop :=
  ∀ (s t : State) (i : Instr) (b0 b1 b2 b3 : Byte) (rest : List Byte), s.status = .running →
    s.imem.drop s.pc.toNat = b0 :: b1 :: b2 :: b3 :: rest → decode (b3 ++ b2 ++ b1 ++ b0) = .ok i → exec i s = .next t →
    (t.status = .running →
      step s = .next { t with
        pc := s.pc + 4
        status := if s.imem.length ≤ (s.pc + 4).toNat then .completed else .running }) ∧
    (t.status ≠ .running → step s = .next t)

/-- Completed and Faulted are final: no number of further steps changes anything (R45; the spec's decision D21, log entry 11). -/
def Obligations.FinalStatesStayFinal : Prop :=
  ∀ (s : State) (k : Nat), s.status ≠ .running → core.run k s = .next s

/-- A fault in a step is precise and ends the engine (R206): the step changes STATUS alone, so the PC is kept and no
register, CSR or Memory byte is written, and no later step changes anything. It is the spec's decision D7 (log entries 1
and 11). -/
def Obligations.FaultIsPreciseAndFinal : Prop :=
  ∀ (s t : State) (f : Fault), s.status = .running → step s = .next t → t.status = .faulted f →
    t = { s with status := .faulted f } ∧ ∀ k, core.run k t = .next t

/-- Why a step faulted (R200 to R204, R210): four bytes IMEM[pc] to IMEM[pc+3] stand at the PC (R91), and either their
word is outside the table and the fault IllegalInstruction of it; or it decodes to a load or store, and the fault is one
of the two memory faults at its effective address and width, below BASE or past the end of the window. CsrRangeFault
never. -/
def Obligations.FaultTellsItsCause : Prop :=
  ∀ (s t : State) (f : Fault), s.status = .running → step s = .next t → t.status = .faulted f →
    ∃ (b0 b1 b2 b3 : Byte) (rest : List Byte), s.imem.drop s.pc.toNat = b0 :: b1 :: b2 :: b3 :: rest ∧
      ((f = .illegalInstruction (b3 ++ b2 ++ b1 ++ b0) ∧ ¬ isTableWord (b3 ++ b2 ++ b1 ++ b0)) ∨
       (∃ i w rs1 imm, decode (b3 ++ b2 ++ b1 ++ b0) = .ok i ∧ access i = some (w, rs1, imm) ∧
        ((f = .unmappedAddress (s.readReg rs1 + imm) w ∧ (s.readReg rs1 + imm).toNat < Config.base) ∨
         (f = .memoryFault (s.readReg rs1 + imm) w ∧ Config.base ≤ (s.readReg rs1 + imm).toNat ∧
          (s.readReg rs1 + imm).toNat - Config.base + w.bytes > Config.cap))))

/-- No step and no CSR write of the host changes the instruction store, so a store never changes what is fetched and the
instruction store does not change after construction (R248). -/
def Obligations.InstructionStoreIsImmutable : Prop :=
  (∀ s t : State, step s = .next t → t.imem = s.imem) ∧
  ∀ (s : State) (a : Nat) (v : Word), (afterCsrWrite s a v).imem = s.imem

/-- In every state that meets the invariant a step answers a next state: the model never stops an engine, and fetch
raises no fault (R91, R107). -/
def Obligations.StepAlwaysAnswers : Prop :=
  ∀ s : State, s.Inv → ∃ t, step s = .next t

/-- A step without a fault advances the PC by exactly 4, as numbers: it never wraps; one with a fault keeps it (R27,
R29, R107). -/
def Obligations.StepAdvancesByFour : Prop :=
  ∀ s t : State, s.Inv → s.status = .running → step s = .next t →
    (t.pc.toNat = s.pc.toNat + 4 ∧ t.status = if t.pc.toNat < s.imem.length then .running else .completed) ∨
    ∃ f, t = { s with status := .faulted f }

/-- Every step keeps the invariant: whole-word program, aligned PC, STATUS in agreement with the PC, Memory and CSR
File in canonical form (R28, R29, R45, R60, R35). -/
def Obligations.StepKeepsInv : Prop :=
  ∀ s t : State, s.Inv → step s = .next t → t.Inv

/-- A CSR write from the host, at any address, keeps the invariant (R34, R38). -/
def Obligations.CsrWriteKeepsInv : Prop :=
  ∀ (s : State) (a : Nat) (v : Word), s.Inv → (afterCsrWrite s a v).Inv

/-! ### Runs -/

/-- Every run ends: after at most L/4 steps STATUS is Completed or Faulted, that state is what Run returns, and more
steps change nothing. R245 is the spec's derivation from R107 and R108; the bound of `run` is log entry 16. -/
def Obligations.EveryRunEnds : Prop :=
  ∀ s : State, s.Inv → ∃ t, core.run (s.imem.length / 4) s = .next t ∧ t.status ≠ .running ∧ run s = .next t ∧
    ∀ k, s.imem.length / 4 ≤ k → core.run k s = .next t

/-- The end of a run (R246): from PC = 0, k steps without a fault have executed the instructions at 0, 4, ... in order
up to 4k or the end of the program; a fault at PC = p means that p/4 steps ran without a fault and the instruction at p
changed STATUS alone. -/
def Obligations.RunExecutesInOrder : Prop :=
  ∀ (s t : State) (k : Nat), s.Inv → s.status = .running → s.pc = 0 → core.run k s = .next t →
    ((∀ f, t.status ≠ .faulted f) → t.pc.toNat = min (4 * k) s.imem.length) ∧
    ∀ f, t.status = .faulted f →
      ∃ j < k, t.pc.toNat = 4 * j ∧ core.run j s = .next { t with status := .running }

/-! ### Assembler syntax -/

/-- An immediate written as a number or as a 12-bit pattern assembles exactly in its range, to the value it means
(R104). -/
def Obligations.AssemblerImmediates : Prop :=
  (∀ n : Int, -2048 ≤ n → n ≤ 2047 → ∃ w, asmNumber n = some w ∧ w.toInt = n) ∧
  (∀ n : Int, n < -2048 ∨ 2047 < n → asmNumber n = none) ∧
  (∀ p : Nat, p ≤ 0xFFF → ∃ w, asmPattern p = some w ∧ w.toInt = if p < 0x800 then (p : Int) else (p : Int) - 4096) ∧
  (∀ p : Nat, 0xFFF < p → asmPattern p = none)

/-- The three pseudo-instructions (R106): nop changes nothing under either value of X0_HARDWIRED, mv copies, and li
gives its number where x0 reads 0. -/
def Obligations.PseudoInstructions : Prop :=
  ∀ (s : State),
    exec asmNop s = .next s ∧
    (∀ rd rs, exec (asmMv rd rs) s = .next (s.writeReg rd (s.readReg rs))) ∧
    ∀ rd n i, asmLi rd n = some i → s.readReg 0 = 0 → exec i s = .next (s.writeReg rd (BitVec.ofInt 64 n))
end

