-- ==== Sys2Proof/Laws/Cells.lean ====
section
/-! SUPPORT. The sparse cells of Memory and the CSR File: a read after a write, and the canonical form that every write
keeps. -/

namespace Sys2Proof.Machine

variable {n : Nat}

/-- A key below every listed key reads as 0. -/
theorem readCell_of_lt (m : List (Nat × BitVec n)) (k : Nat) (h : ∀ c ∈ m, k < c.1) : readCell m k = 0 := by
  induction m with
  | nil => rfl
  | cons c rest ih =>
    have hc : c.1 ≠ k := Nat.ne_of_gt (h c (by simp))
    simp only [readCell, hc, if_false]
    exact ih (fun d hd => h d (by simp [hd]))

/-- Reading after a write, on cells in canonical form: the written key gives the value written, every other key what it
gave before. -/
theorem readCell_writeCell (m : List (Nat × BitVec n)) (hm : canonical m) (k j : Nat) (v : BitVec n) :
    readCell (writeCell m k v) j = if j = k then v else readCell m j := by
  induction m with
  | nil =>
    rw [writeCell]
    by_cases hv : v = 0
    · rw [if_pos hv, hv]; simp [readCell]
    · rw [if_neg hv]
      by_cases hj : j = k
      · simp [readCell, hj]
      · simp [readCell, hj, Ne.symm hj]
  | cons c rest ih =>
    obtain ⟨a, x⟩ := c
    have hr : canonical rest := ⟨(List.pairwise_cons.1 hm.1).2, fun d hd => hm.2 d (by simp [hd])⟩
    have hlt : ∀ d ∈ rest, a < d.1 := (List.pairwise_cons.1 hm.1).1
    rw [writeCell]
    by_cases hk : k < a
    · have h0 : readCell ((a, x) :: rest) k = 0 := readCell_of_lt _ _ (by
        intro d hd
        rcases List.mem_cons.1 hd with rfl | hd
        · exact hk
        · exact Nat.lt_trans hk (hlt d hd))
      rw [if_pos hk]
      by_cases hv : v = 0
      · rw [if_pos hv, hv]
        by_cases hj : j = k
        · rw [hj, if_pos rfl, h0]
        · rw [if_neg hj]
      · rw [if_neg hv, readCell]
        by_cases hj : j = k
        · rw [if_pos hj.symm, if_pos hj]
        · rw [if_neg (Ne.symm hj), if_neg hj]
    · rw [if_neg hk]
      by_cases hka : k = a
      · subst hka
        rw [if_pos rfl]
        have h0 : readCell rest k = 0 := readCell_of_lt _ _ hlt
        by_cases hv : v = 0
        · rw [if_pos hv, hv]
          by_cases hj : j = k
          · rw [hj, if_pos rfl, h0]
          · rw [if_neg hj, readCell, if_neg (Ne.symm hj)]
        · rw [if_neg hv, readCell, readCell]
          by_cases hj : j = k
          · rw [if_pos hj.symm, if_pos hj]
          · rw [if_neg (Ne.symm hj), if_neg hj, if_neg (Ne.symm hj)]
      · rw [if_neg hka, readCell, readCell, ih hr]
        by_cases haj : a = j
        · rw [if_pos haj, if_pos haj, if_neg (fun h => hka (h.symm.trans haj.symm))]
        · rw [if_neg haj, if_neg haj]

/-- Every entry after a write is an entry from before or the written one, which is not 0. -/
theorem mem_writeCell (m : List (Nat × BitVec n)) (k : Nat) (v : BitVec n) (c : Nat × BitVec n)
    (h : c ∈ writeCell m k v) : c ∈ m ∨ (c = (k, v) ∧ v ≠ 0) := by
  induction m with
  | nil =>
    by_cases hv : v = 0
    · simp [writeCell, hv] at h
    · rw [writeCell, if_neg hv] at h
      exact .inr ⟨by simpa using h, hv⟩
  | cons d rest ih =>
    obtain ⟨a, x⟩ := d
    simp only [writeCell] at h
    split_ifs at h with hk hv hka hv'
    · exact .inl h
    · rcases List.mem_cons.1 h with rfl | h
      · exact .inr ⟨rfl, hv⟩
      · exact .inl h
    · exact .inl (List.mem_cons_of_mem _ h)
    · rcases List.mem_cons.1 h with rfl | h
      · exact .inr ⟨rfl, hv'⟩
      · exact .inl (List.mem_cons_of_mem _ h)
    · rcases List.mem_cons.1 h with rfl | h
      · exact .inl (by simp)
      · rcases ih h with h | h
        · exact .inl (List.mem_cons_of_mem _ h)
        · exact .inr h

/-- A write keeps the canonical form. -/
theorem writeCell_canonical (m : List (Nat × BitVec n)) (hm : canonical m) (k : Nat) (v : BitVec n) :
    canonical (writeCell m k v) := by
  refine ⟨?_, fun c hc => ?_⟩
  · induction m with
    | nil => rw [writeCell]; split <;> simp
    | cons d rest ih =>
      obtain ⟨a, x⟩ := d
      have hp := List.pairwise_cons.1 hm.1
      simp only [writeCell]
      split_ifs with hk hv hka hv'
      · exact hm.1
      · refine List.pairwise_cons.2 ⟨fun d hd => ?_, hm.1⟩
        rcases List.mem_cons.1 hd with rfl | hd
        · exact hk
        · exact Nat.lt_trans hk (hp.1 d hd)
      · exact hp.2
      · exact List.pairwise_cons.2 ⟨fun d hd => hka ▸ hp.1 d hd, hp.2⟩
      · refine List.pairwise_cons.2 ⟨fun d hd => ?_, ih ⟨hp.2, fun d hd => hm.2 d (by simp [hd])⟩⟩
        rcases mem_writeCell _ _ _ _ hd with hd | ⟨rfl, -⟩
        · exact hp.1 d hd
        · show a < k; omega
  · rcases mem_writeCell _ _ _ _ hc with h | ⟨rfl, hv⟩
    · exact hm.2 c h
    · exact hv

/-- Writing a byte of Memory keeps Memory in form (R60). -/
theorem writeCell_memory_wf (m : Memory) (hm : m.wf) (o : Nat) (b : Byte) (ho : o < Config.cap) :
    Memory.wf (writeCell m o b) :=
  ⟨writeCell_canonical m hm.1 o b, fun c hc => by
    rcases mem_writeCell _ _ _ _ hc with h | ⟨rfl, -⟩
    · exact hm.2 c h
    · exact ho⟩

/-- Writing a CSR cell other than 0x104 keeps the CSR File in form (R31, R35). -/
theorem writeCell_csrs_wf (m : CsrCells) (hm : m.wf) (a : Nat) (v : Word) (ha : a < Config.ncsr)
    (hs : a ≠ Config.sie) : CsrCells.wf (writeCell m a v) :=
  ⟨writeCell_canonical m hm.1 a v, fun c hc => by
    rcases mem_writeCell _ _ _ _ hc with h | ⟨rfl, -⟩
    · exact hm.2 c h
    · exact ⟨ha, hs⟩⟩

/-- The Memory and the CSR File of the reset state are in form. -/
theorem reset_cells_wf : State.reset.mem.wf ∧ State.reset.csrs.wf := by decide

/-- The Memory that construction builds is in form (R49). -/
theorem constructMem_wf (init : Memory) : (constructMem init).wf := by
  induction init with
  | nil => exact ⟨⟨List.Pairwise.nil, by simp [constructMem]⟩, by simp [constructMem]⟩
  | cons c rest ih =>
    by_cases h : c.1 < Config.cap
    · simpa [constructMem, h] using writeCell_memory_wf _ ih c.1 c.2 h
    · simpa [constructMem, h] using ih

/-- The CSR File that construction builds is in form (R48). -/
theorem constructCsrs_wf (init : CsrCells) : (constructCsrs init).wf := by
  induction init with
  | nil => exact ⟨⟨List.Pairwise.nil, by simp [constructCsrs]⟩, by simp [constructCsrs]⟩
  | cons c rest ih =>
    by_cases h : c.1 < Config.ncsr ∧ c.1 ≠ Config.sie
    · have := writeCell_csrs_wf _ ih c.1 c.2 h.1 h.2
      simpa [constructCsrs, h.1, h.2] using this
    · have e : constructCsrs (c :: rest) = constructCsrs rest := by
        simp only [constructCsrs, List.foldr_cons, if_neg h]
      rw [e]; exact ih

end Sys2Proof.Machine
end

