-- ==== Sys2Proof/Laws/Decode.lean ====
section
/-! SUPPORT. The fields of encoded words (R92, R93, R95), the words that fields give back, the word of four bytes (R91),
and the selector fields that the table's masks fix (R98). -/

namespace Sys2Proof

variable (op : BitVec 7) (f3 : BitVec 3) (f7 : BitVec 7) (rd rs1 rs2 : RegIdx) (imm : Word) (w : InstrWord)

@[simp] theorem opcodeField_encodeI :
    opcodeField (encodeI op f3 rd rs1 imm) = op := by
  apply BitVec.eq_of_getLsbD_eq
  intro j hj
  simp only [opcodeField, encodeI, BitVec.getLsbD_extractLsb', BitVec.getLsbD_append]
  interval_cases j <;> simp

@[simp] theorem funct3Field_encodeI :
    funct3Field (encodeI op f3 rd rs1 imm) = f3 := by
  apply BitVec.eq_of_getLsbD_eq
  intro j hj
  simp only [funct3Field, encodeI, BitVec.getLsbD_extractLsb', BitVec.getLsbD_append]
  interval_cases j <;> simp

@[simp] theorem rs1Field_encodeI :
    rs1Field (encodeI op f3 rd rs1 imm) = rs1 := by
  apply BitVec.eq_of_getLsbD_eq
  intro j hj
  simp only [rs1Field, encodeI, BitVec.getLsbD_extractLsb', BitVec.getLsbD_append]
  interval_cases j <;> simp

@[simp] theorem rdField_encodeI :
    rdField (encodeI op f3 rd rs1 imm) = rd := by
  apply BitVec.eq_of_getLsbD_eq
  intro j hj
  simp only [rdField, encodeI, BitVec.getLsbD_extractLsb', BitVec.getLsbD_append]
  interval_cases j <;> simp

@[simp] theorem opcodeField_encodeS :
    opcodeField (encodeS op f3 rs1 rs2 imm) = op := by
  apply BitVec.eq_of_getLsbD_eq
  intro j hj
  simp only [opcodeField, encodeS, BitVec.getLsbD_extractLsb', BitVec.getLsbD_append]
  interval_cases j <;> simp

@[simp] theorem funct3Field_encodeS :
    funct3Field (encodeS op f3 rs1 rs2 imm) = f3 := by
  apply BitVec.eq_of_getLsbD_eq
  intro j hj
  simp only [funct3Field, encodeS, BitVec.getLsbD_extractLsb', BitVec.getLsbD_append]
  interval_cases j <;> simp

@[simp] theorem rs1Field_encodeS :
    rs1Field (encodeS op f3 rs1 rs2 imm) = rs1 := by
  apply BitVec.eq_of_getLsbD_eq
  intro j hj
  simp only [rs1Field, encodeS, BitVec.getLsbD_extractLsb', BitVec.getLsbD_append]
  interval_cases j <;> simp

@[simp] theorem rs2Field_encodeS :
    rs2Field (encodeS op f3 rs1 rs2 imm) = rs2 := by
  apply BitVec.eq_of_getLsbD_eq
  intro j hj
  simp only [rs2Field, encodeS, BitVec.getLsbD_extractLsb', BitVec.getLsbD_append]
  interval_cases j <;> simp

@[simp] theorem opcodeField_encodeR :
    opcodeField (encodeR op f3 f7 rd rs1 rs2) = op := by
  apply BitVec.eq_of_getLsbD_eq
  intro j hj
  simp only [opcodeField, encodeR, BitVec.getLsbD_extractLsb', BitVec.getLsbD_append]
  interval_cases j <;> simp

@[simp] theorem funct3Field_encodeR :
    funct3Field (encodeR op f3 f7 rd rs1 rs2) = f3 := by
  apply BitVec.eq_of_getLsbD_eq
  intro j hj
  simp only [funct3Field, encodeR, BitVec.getLsbD_extractLsb', BitVec.getLsbD_append]
  interval_cases j <;> simp

@[simp] theorem rs1Field_encodeR :
    rs1Field (encodeR op f3 f7 rd rs1 rs2) = rs1 := by
  apply BitVec.eq_of_getLsbD_eq
  intro j hj
  simp only [rs1Field, encodeR, BitVec.getLsbD_extractLsb', BitVec.getLsbD_append]
  interval_cases j <;> simp

@[simp] theorem rdField_encodeR :
    rdField (encodeR op f3 f7 rd rs1 rs2) = rd := by
  apply BitVec.eq_of_getLsbD_eq
  intro j hj
  simp only [rdField, encodeR, BitVec.getLsbD_extractLsb', BitVec.getLsbD_append]
  interval_cases j <;> simp

@[simp] theorem rs2Field_encodeR :
    rs2Field (encodeR op f3 f7 rd rs1 rs2) = rs2 := by
  apply BitVec.eq_of_getLsbD_eq
  intro j hj
  simp only [rs2Field, encodeR, BitVec.getLsbD_extractLsb', BitVec.getLsbD_append]
  interval_cases j <;> simp

@[simp] theorem funct7Field_encodeR :
    funct7Field (encodeR op f3 f7 rd rs1 rs2) = f7 := by
  apply BitVec.eq_of_getLsbD_eq
  intro j hj
  simp only [funct7Field, encodeR, BitVec.getLsbD_extractLsb', BitVec.getLsbD_append]
  interval_cases j <;> simp

@[simp] theorem immBits_encodeI :
    (encodeI op f3 rd rs1 imm).extractLsb' 20 12 = imm.extractLsb' 0 12 := by
  apply BitVec.eq_of_getLsbD_eq
  intro j hj
  simp only [encodeI, BitVec.getLsbD_extractLsb', BitVec.getLsbD_append]
  interval_cases j <;> simp

@[simp] theorem immBits_encodeS :
    (encodeS op f3 rs1 rs2 imm).extractLsb' 25 7 ++ (encodeS op f3 rs1 rs2 imm).extractLsb' 7 5 = imm.extractLsb' 0 12 := by
  apply BitVec.eq_of_getLsbD_eq
  intro j hj
  simp only [encodeS, BitVec.getLsbD_extractLsb', BitVec.getLsbD_append]
  interval_cases j <;> simp

theorem immI_encodeI : immI (encodeI op f3 rd rs1 imm) = sext12 (imm.extractLsb' 0 12) := by
  rw [immI, immBits_encodeI]

theorem immS_encodeS : immS (encodeS op f3 rs1 rs2 imm) = sext12 (imm.extractLsb' 0 12) := by
  rw [immS, immBits_encodeS]

theorem wordOfBytes_bytesOfWord :
    wordOfBytes (w.extractLsb' 0 8) (w.extractLsb' 8 8) (w.extractLsb' 16 8) (w.extractLsb' 24 8) = w := by
  apply BitVec.eq_of_getLsbD_eq
  intro j hj
  simp only [wordOfBytes, BitVec.getLsbD_extractLsb', BitVec.getLsbD_append]
  interval_cases j <;> simp

/-- Fetching the bytes of a word and decoding is decoding the word (R91, R99). -/
theorem decodeBytes_bytesOfWord (rest : List Byte) :
    decodeBytes (bytesOfWord w ++ rest) = (decode w).map (fun i => (i, rest)) := by
  simp only [bytesOfWord, List.cons_append, List.nil_append, decodeBytes, wordOfBytes_bytesOfWord]
  cases decode w <;> rfl

/-- A 64-bit value is the sign extension of its low 12 bits exactly when it lies in [-2048, 2047] (R94, R96). -/
theorem sext12_extractLsb' (h : immInRange imm = true) : sext12 (imm.extractLsb' 0 12) = imm := by
  have hr : -2048 ≤ imm.toInt ∧ imm.toInt ≤ 2047 := of_decide_eq_true h
  have hi := BitVec.toInt_eq_toNat_bmod (x := imm)
  apply BitVec.eq_of_toInt_eq
  have hn : (imm.extractLsb' 0 12).toNat = imm.toNat % 4096 := by
    simp [BitVec.extractLsb'_toNat]
  rw [sext12, BitVec.toInt_signExtend_of_le (by omega), BitVec.toInt_eq_toNat_bmod, hn]
  have := imm.isLt
  rw [Int.bmod_def] at *
  omega

/-- Every sign-extended 12-bit value lies in [-2048, 2047] (R94). -/
theorem immInRange_sext12 (i : BitVec 12) : immInRange (sext12 i) = true := by
  have h1 := BitVec.toInt_lt (x := i)
  have h2 := BitVec.le_toInt i
  have h3 : (sext12 i).toInt = i.toInt := BitVec.toInt_signExtend_of_le (by omega)
  simp only [immInRange, h3]
  exact decide_eq_true ⟨by omega, by omega⟩

/-- The mask 0x707F keeps opcode and funct3 (R98): they are those of the match value. -/
theorem selectors_of_mask (m : InstrWord) (h : w &&& 0x707F#32 = m) :
    opcodeField w = opcodeField m ∧ funct3Field w = funct3Field m := by
  subst h
  constructor <;>
  · apply BitVec.eq_of_getLsbD_eq
    intro j hj
    simp only [opcodeField, funct3Field, BitVec.getLsbD_extractLsb', BitVec.getLsbD_and]
    interval_cases j <;> simp

/-- The mask 0xFE00707F keeps opcode, funct3 and funct7 (R98). -/
theorem selectors_of_wide_mask (m : InstrWord) (h : w &&& 0xFE00707F#32 = m) :
    opcodeField w = opcodeField m ∧ funct3Field w = funct3Field m ∧ funct7Field w = funct7Field m := by
  subst h
  refine ⟨?_, ?_, ?_⟩ <;>
  · apply BitVec.eq_of_getLsbD_eq
    intro j hj
    simp only [opcodeField, funct3Field, funct7Field, BitVec.getLsbD_extractLsb', BitVec.getLsbD_and]
    interval_cases j <;> simp

end Sys2Proof
end

