-- ==== Sys2Proof/Laws/HostPort.lean ====
section
/-! SUPPORT. Everything the CSR port can do (R33, R34). -/

namespace Sys2Proof.Machine

/-- Everything a CSR write can do (R34): the range fault, or one cell other than 0x104 written and nothing else; the cell
is MIE for the view at 0x104, else the addressed one. -/
theorem csrWrite_cases (s : State) (a : Nat) (v : Word) :
    (Config.ncsr ≤ a ∧ csrWrite s a v = .error (.csrRangeFault a)) ∨
    (a = Config.sie ∧ ∃ x, csrWrite s a v = .ok { s with csrs := writeCell s.csrs Config.mie x }) ∨
    (a < Config.ncsr ∧ a ≠ Config.sie ∧ csrWrite s a v = .ok { s with csrs := writeCell s.csrs a v }) := by
  unfold csrWrite
  by_cases h : a ≥ Config.ncsr
  · exact .inl ⟨h, by rw [if_pos h]⟩
  · by_cases hs : a = Config.sie
    · exact .inr (.inl ⟨hs, _, by rw [if_neg h, if_pos hs]⟩)
    · exact .inr (.inr ⟨Nat.lt_of_not_le h, hs, by rw [if_neg h, if_neg hs]⟩)

/-- Everything a CSR read can do (R33): the range fault, the view, or the addressed cell. -/
theorem csrRead_cases (s : State) (a : Nat) :
    (Config.ncsr ≤ a ∧ csrRead s a = .error (.csrRangeFault a)) ∨
    (a < Config.ncsr ∧ ∃ v, csrRead s a = .ok v) := by
  unfold csrRead
  by_cases h : a ≥ Config.ncsr
  · exact .inl ⟨h, by rw [if_pos h]⟩
  · refine .inr ⟨Nat.lt_of_not_le h, ?_⟩
    rw [if_neg h]
    split <;> exact ⟨_, rfl⟩

end Sys2Proof.Machine
end

