-- ==== Sys2Proof/Laws/Memory.lean ====
section
/-! SUPPORT. Runs of bytes in Memory (R61, R62), and everything a Bus access can do (R63, R64). -/

namespace Sys2Proof.Machine

/-- Storing bytes keeps the canonical form. -/
theorem storeBytes_canonical (m : Memory) (hm : canonical m) (o : Nat) (v : Word) (n : Nat) :
    canonical (storeBytes m o v n) := by
  induction n with
  | zero => exact hm
  | succ n ih => exact writeCell_canonical _ ih _ _

/-- Storing bytes below CAP keeps Memory in form. -/
theorem storeBytes_wf (m : Memory) (hm : m.wf) (o : Nat) (v : Word) (n : Nat) (h : o + n ≤ Config.cap) :
    Memory.wf (storeBytes m o v n) := by
  induction n with
  | zero => exact hm
  | succ n ih => exact writeCell_memory_wf _ (ih (by omega)) _ _ (by omega)

/-- A byte read after a store (R62): byte k - o of the value inside the stored bytes, what was there before outside. -/
theorem readCell_storeBytes (m : Memory) (hm : canonical m) (o : Nat) (v : Word) (n k : Nat) :
    readCell (storeBytes m o v n) k =
      if o ≤ k ∧ k < o + n then v.extractLsb' (8 * (k - o)) 8 else readCell m k := by
  induction n with
  | zero => rw [if_neg (by omega)]; rfl
  | succ n ih =>
    rw [storeBytes, readCell_writeCell _ (storeBytes_canonical m hm o v n), ih]
    by_cases hk : k = o + n
    · subst hk
      rw [if_pos rfl, if_pos (by omega), Nat.add_sub_cancel_left]
    · rw [if_neg hk]
      by_cases h : o ≤ k ∧ k < o + n
      · rw [if_pos h, if_pos (by omega)]
      · rw [if_neg h, if_neg (by omega)]

/-- A bit of a loaded value (R61): bit j % 8 of the byte at o + j / 8, and 0 above the bytes loaded. -/
theorem getLsbD_loadBytes (m : Memory) (o n : Nat) (j : Nat) (hj : j < 64) :
    (loadBytes m o n).getLsbD j = (decide (j < 8 * n) && (readCell m (o + j / 8)).getLsbD (j % 8)) := by
  induction n with
  | zero => simp [loadBytes]
  | succ n ih =>
    rw [loadBytes, BitVec.getLsbD_or, ih, BitVec.getLsbD_shiftLeft, BitVec.getLsbD_setWidth]
    by_cases h1 : j < 8 * n
    · simp [h1, hj, show j < 8 * (n + 1) by omega]
    · by_cases h2 : j < 8 * (n + 1)
      · have hd : j / 8 = n := by omega
        have hm : j - 8 * n = j % 8 := by omega
        simp [h1, h2, hj, hd, hm, show j % 8 < 64 by omega]
      · have : 8 ≤ j - 8 * n := by omega
        simp [h1, h2, BitVec.getLsbD_of_ge _ _ this]

/-- The Bus address is its offset plus BASE (R61, R200): the recorded address is the effective address. -/
theorem ofNat_offset_add_base (a : Word) (h : Config.base ≤ a.toNat) :
    BitVec.ofNat 64 (a.toNat - Config.base + Config.base) = a := by
  rw [Nat.sub_add_cancel h]; simp

/-- The byte `k` places above an address of the window is the Memory byte `k` places above its offset (R67). -/
theorem byteAt_add (s : State) (a : Word) (n k : Nat) (h : mapped a n) (hk : k < n) :
    byteAt s (a + BitVec.ofNat 64 k) = readCell s.mem (a.toNat - Config.base + k) := by
  have htop : Config.base + Config.cap < 2 ^ 64 := by decide
  have hle := h.2
  have e : (a + BitVec.ofNat 64 k).toNat = a.toNat + k := by
    rw [BitVec.toNat_add, BitVec.toNat_ofNat]
    omega
  rw [byteAt, e, Nat.sub_add_comm h.1]

/-- Everything a Bus load can do (R63, R67): an access below BASE is unmapped, one whose bytes leave the window at the
top is a memory fault, any other reads the bytes. -/
theorem memRead_cases (s : State) (a : Word) (w : Width) :
    (a.toNat < Config.base ∧ memRead s a w = .error (.unmappedAddress a w)) ∨
    (Config.base ≤ a.toNat ∧ Config.base + Config.cap < a.toNat + w.bytes ∧
      memRead s a w = .error (.memoryFault a w)) ∨
    (mapped a w.bytes ∧ memRead s a w = .ok (loadBytes s.mem (a.toNat - Config.base) w.bytes)) := by
  unfold memRead memoryLoad
  by_cases h : a.toNat < Config.base
  · exact .inl ⟨h, by rw [if_pos h]⟩
  · have hb : Config.base ≤ a.toNat := Nat.le_of_not_lt h
    rw [if_neg h, ofNat_offset_add_base a hb]
    by_cases hc : a.toNat - Config.base + w.bytes > Config.cap
    · exact .inr (.inl ⟨hb, by omega, by rw [if_pos hc]⟩)
    · exact .inr (.inr ⟨⟨hb, by omega⟩, by rw [if_neg hc]⟩)

/-- Everything a Bus store can do (R64, R67): the two faults, or the bytes written and nothing else. -/
theorem memWrite_cases (s : State) (a : Word) (w : Width) (v : Word) :
    (a.toNat < Config.base ∧ memWrite s a w v = .error (.unmappedAddress a w)) ∨
    (Config.base ≤ a.toNat ∧ Config.base + Config.cap < a.toNat + w.bytes ∧
      memWrite s a w v = .error (.memoryFault a w)) ∨
    (mapped a w.bytes ∧
      memWrite s a w v = .ok { s with mem := storeBytes s.mem (a.toNat - Config.base) v w.bytes }) := by
  unfold memWrite memoryStore
  by_cases h : a.toNat < Config.base
  · exact .inl ⟨h, by rw [if_pos h]⟩
  · have hb : Config.base ≤ a.toNat := Nat.le_of_not_lt h
    rw [if_neg h, ofNat_offset_add_base a hb]
    by_cases hc : a.toNat - Config.base + w.bytes > Config.cap
    · exact .inr (.inl ⟨hb, by omega, by rw [if_pos hc]⟩)
    · exact .inr (.inr ⟨⟨hb, by omega⟩, by rw [if_neg hc]⟩)

end Sys2Proof.Machine
end

