-- ==== Sys2Proof/Laws/PerInstr.lean ====
section
/-! SUPPORT. The family TableRow: the word of every instruction meets its row of spec/opcode_table.json, whatever its
operands: under the row's mask it is the row's match value (R98). -/

namespace Sys2Proof.Laws.TableRow

/-- The mask column of the opcode table. -/
def mask : Instr → InstrWord
  | .lb _ _ _ => 0x0000707F
  | .lh _ _ _ => 0x0000707F
  | .lw _ _ _ => 0x0000707F
  | .ld _ _ _ => 0x0000707F
  | .lbu _ _ _ => 0x0000707F
  | .lhu _ _ _ => 0x0000707F
  | .lwu _ _ _ => 0x0000707F
  | .addi _ _ _ => 0x0000707F
  | .sb _ _ _ => 0x0000707F
  | .sh _ _ _ => 0x0000707F
  | .sw _ _ _ => 0x0000707F
  | .sd _ _ _ => 0x0000707F
  | .add _ _ _ => 0xFE00707F

/-- The match column of the opcode table. -/
def matchValue : Instr → InstrWord
  | .lb _ _ _ => 0x00000003
  | .lh _ _ _ => 0x00001003
  | .lw _ _ _ => 0x00002003
  | .ld _ _ _ => 0x00003003
  | .lbu _ _ _ => 0x00004003
  | .lhu _ _ _ => 0x00005003
  | .lwu _ _ _ => 0x00006003
  | .addi _ _ _ => 0x00000013
  | .sb _ _ _ => 0x00000023
  | .sh _ _ _ => 0x00001023
  | .sw _ _ _ => 0x00002023
  | .sd _ _ _ => 0x00003023
  | .add _ _ _ => 0x00000033

/-- The instruction's word lies in its table row. -/
def Statement (i : Instr) : Prop := encode i &&& mask i = matchValue i

theorem encodeI_row (op : BitVec 7) (f3 : BitVec 3) (rd rs1 : RegIdx) (imm : Word) :
    encodeI op f3 rd rs1 imm &&& 0x0000707F#32 = (f3 ++ 0#5 ++ op).setWidth 32 := by
  apply BitVec.eq_of_getLsbD_eq
  intro j hj
  simp only [encodeI, BitVec.getLsbD_and, BitVec.getLsbD_append, BitVec.getLsbD_setWidth]
  interval_cases j <;> simp

theorem encodeS_row (op : BitVec 7) (f3 : BitVec 3) (rs1 rs2 : RegIdx) (imm : Word) :
    encodeS op f3 rs1 rs2 imm &&& 0x0000707F#32 = (f3 ++ 0#5 ++ op).setWidth 32 := by
  apply BitVec.eq_of_getLsbD_eq
  intro j hj
  simp only [encodeS, BitVec.getLsbD_and, BitVec.getLsbD_append, BitVec.getLsbD_setWidth]
  interval_cases j <;> simp

theorem lb (rd rs1 : RegIdx) (imm : Word) : Statement (.lb rd rs1 imm) := encodeI_row _ _ _ _ _
theorem lh (rd rs1 : RegIdx) (imm : Word) : Statement (.lh rd rs1 imm) := encodeI_row _ _ _ _ _
theorem lw (rd rs1 : RegIdx) (imm : Word) : Statement (.lw rd rs1 imm) := encodeI_row _ _ _ _ _
theorem ld (rd rs1 : RegIdx) (imm : Word) : Statement (.ld rd rs1 imm) := encodeI_row _ _ _ _ _
theorem lbu (rd rs1 : RegIdx) (imm : Word) : Statement (.lbu rd rs1 imm) := encodeI_row _ _ _ _ _
theorem lhu (rd rs1 : RegIdx) (imm : Word) : Statement (.lhu rd rs1 imm) := encodeI_row _ _ _ _ _
theorem lwu (rd rs1 : RegIdx) (imm : Word) : Statement (.lwu rd rs1 imm) := encodeI_row _ _ _ _ _
theorem addi (rd rs1 : RegIdx) (imm : Word) : Statement (.addi rd rs1 imm) := encodeI_row _ _ _ _ _
theorem sb (rs1 rs2 : RegIdx) (imm : Word) : Statement (.sb rs1 rs2 imm) := encodeS_row _ _ _ _ _
theorem sh (rs1 rs2 : RegIdx) (imm : Word) : Statement (.sh rs1 rs2 imm) := encodeS_row _ _ _ _ _
theorem sw (rs1 rs2 : RegIdx) (imm : Word) : Statement (.sw rs1 rs2 imm) := encodeS_row _ _ _ _ _
theorem sd (rs1 rs2 : RegIdx) (imm : Word) : Statement (.sd rs1 rs2 imm) := encodeS_row _ _ _ _ _

theorem add (rd rs1 rs2 : RegIdx) : Statement (.add rd rs1 rs2) := by
  show encodeR 0x33 0 0 rd rs1 rs2 &&& 0xFE00707F#32 = 0x00000033#32
  apply BitVec.eq_of_getLsbD_eq
  intro j hj
  simp only [encodeR, BitVec.getLsbD_and, BitVec.getLsbD_append]
  interval_cases j <;> simp

end Sys2Proof.Laws.TableRow
end

