-- ==== Sys2Proof/Laws/State.lean ====
section
/-! SUPPORT. The fields of the state after each shared update: one lemma per field and update. -/

namespace Sys2Proof.Machine

variable (s : State) (f : Fault) (i : RegIdx) (v : Word)

@[simp] theorem Width.bytes_byte : Width.byte.bytes = 1 := rfl
@[simp] theorem Width.bytes_half : Width.half.bytes = 2 := rfl
@[simp] theorem Width.bytes_word : Width.word.bytes = 4 := rfl
@[simp] theorem Width.bytes_dword : Width.dword.bytes = 8 := rfl

@[simp] theorem State.raise_regs : (s.raise f).regs = s.regs := rfl
@[simp] theorem State.raise_pc : (s.raise f).pc = s.pc := rfl
@[simp] theorem State.raise_csrs : (s.raise f).csrs = s.csrs := rfl
@[simp] theorem State.raise_mem : (s.raise f).mem = s.mem := rfl
@[simp] theorem State.raise_imem : (s.raise f).imem = s.imem := rfl
@[simp] theorem State.raise_status : (s.raise f).status = .faulted f := rfl
@[simp] theorem State.raise_x0Hardwired : (s.raise f).x0Hardwired = s.x0Hardwired := rfl

@[simp] theorem State.advance_regs : s.advance.regs = s.regs := rfl
@[simp] theorem State.advance_pc : s.advance.pc = s.pc + 4 := rfl
@[simp] theorem State.advance_csrs : s.advance.csrs = s.csrs := rfl
@[simp] theorem State.advance_mem : s.advance.mem = s.mem := rfl
@[simp] theorem State.advance_imem : s.advance.imem = s.imem := rfl
@[simp] theorem State.advance_status :
    s.advance.status = if s.imem.length ≤ (s.pc + 4).toNat then .completed else s.status := rfl
@[simp] theorem State.advance_x0Hardwired : s.advance.x0Hardwired = s.x0Hardwired := rfl

@[simp] theorem State.writeReg_pc : (s.writeReg i v).pc = s.pc := by
  unfold State.writeReg; split <;> rfl
@[simp] theorem State.writeReg_csrs : (s.writeReg i v).csrs = s.csrs := by
  unfold State.writeReg; split <;> rfl
@[simp] theorem State.writeReg_mem : (s.writeReg i v).mem = s.mem := by
  unfold State.writeReg; split <;> rfl
@[simp] theorem State.writeReg_imem : (s.writeReg i v).imem = s.imem := by
  unfold State.writeReg; split <;> rfl
@[simp] theorem State.writeReg_status : (s.writeReg i v).status = s.status := by
  unfold State.writeReg; split <;> rfl
@[simp] theorem State.writeReg_x0Hardwired : (s.writeReg i v).x0Hardwired = s.x0Hardwired := by
  unfold State.writeReg; split <;> rfl

@[simp] theorem State.raise_readReg (j : RegIdx) : (s.raise f).readReg j = s.readReg j := rfl
@[simp] theorem State.advance_readReg (j : RegIdx) : s.advance.readReg j = s.readReg j := rfl

/-- Reading a register after a write (R10): x0 reads 0 where it is hardwired, the written register its new value, every
other register what it read before. -/
theorem State.readReg_writeReg (j : RegIdx) :
    (s.writeReg i v).readReg j =
      if s.x0Hardwired = true ∧ j = 0 then 0 else if j = i then v else s.readReg j := by
  by_cases hz : s.x0Hardwired = true ∧ i = 0
  · rw [State.writeReg, if_pos hz]
    by_cases hr : s.x0Hardwired = true ∧ j = 0
    · rw [if_pos hr, State.readReg, if_pos hr]
    · rw [if_neg hr, if_neg (fun h => hr ⟨hz.1, h.trans hz.2⟩)]
  · have hx : (s.writeReg i v).x0Hardwired = s.x0Hardwired := State.writeReg_x0Hardwired s i v
    rw [State.readReg, hx, State.writeReg, if_neg hz]
    by_cases hr : s.x0Hardwired = true ∧ j = 0
    · rw [if_pos hr, if_pos hr]
    · rw [if_neg hr, if_neg hr, State.readReg, if_neg hr]
      by_cases h : j = i
      · subst h; simp
      · have h' : ¬ i.toNat = j.toNat := fun e => h (BitVec.toNat_inj.1 e.symm)
        simp [h, h']

end Sys2Proof.Machine
end

