-- ==== Sys2Proof/Laws/Step.lean ====
section
/-! SUPPORT. Everything the shared operations of the instructions can do, everything an instruction can do, and
everything a step can do, each said once. -/

namespace Sys2Proof.Machine

/-- Everything a load can do (R130): raise one of the two faults, or write rd with the extended bytes. -/
theorem load_cases (w : Width) (ext : Word → Word) (rd rs1 : RegIdx) (imm : Word) (s : State) :
    (∃ f, load w ext rd rs1 imm s = .next (s.raise f) ∧ ∃ ea, f = .unmappedAddress ea w ∨ f = .memoryFault ea w) ∨
    (mapped (s.readReg rs1 + imm) w.bytes ∧
      load w ext rd rs1 imm s = .next (s.writeReg rd
        (ext (loadBytes s.mem ((s.readReg rs1 + imm).toNat - Config.base) w.bytes)))) := by
  unfold load effectiveAddress add64
  rcases memRead_cases s (s.readReg rs1 + imm) w with ⟨-, h⟩ | ⟨-, -, h⟩ | ⟨hm, h⟩ <;> rw [h]
  · exact .inl ⟨_, rfl, _, .inl rfl⟩
  · exact .inl ⟨_, rfl, _, .inr rfl⟩
  · exact .inr ⟨hm, rfl⟩

/-- Everything a store can do (R160): raise one of the two faults, or write its bytes. -/
theorem store_cases (w : Width) (rs1 rs2 : RegIdx) (imm : Word) (s : State) :
    (∃ f, store w rs1 rs2 imm s = .next (s.raise f) ∧ ∃ ea, f = .unmappedAddress ea w ∨ f = .memoryFault ea w) ∨
    (mapped (s.readReg rs1 + imm) w.bytes ∧
      store w rs1 rs2 imm s = .next { s with
        mem := storeBytes s.mem ((s.readReg rs1 + imm).toNat - Config.base) (s.readReg rs2) w.bytes }) := by
  unfold store effectiveAddress add64
  rcases memWrite_cases s (s.readReg rs1 + imm) w (s.readReg rs2) with ⟨-, h⟩ | ⟨-, -, h⟩ | ⟨hm, h⟩ <;> rw [h]
  · exact .inl ⟨_, rfl, _, .inl rfl⟩
  · exact .inl ⟨_, rfl, _, .inr rfl⟩
  · exact .inr ⟨hm, rfl⟩

/-- What an instruction can do: raise a memory fault of its access, write one register, or store bytes that lie in the
window. -/
def ExecOutcome (o : Host.Outcome State Fault Refusal) (s : State) : Prop :=
  (∃ f, o = .next (s.raise f) ∧ ∃ ea w, f = .unmappedAddress ea w ∨ f = .memoryFault ea w) ∨
  (∃ rd v, o = .next (s.writeReg rd v)) ∨
  (∃ a v, ∃ w : Width, mapped a w.bytes ∧
    o = .next { s with mem := storeBytes s.mem (a.toNat - Config.base) v w.bytes })

theorem load_outcome (w : Width) (ext : Word → Word) (rd rs1 : RegIdx) (imm : Word) (s : State) :
    ExecOutcome (load w ext rd rs1 imm s) s := by
  rcases load_cases w ext rd rs1 imm s with ⟨f, hf, ea, hk⟩ | ⟨-, hr⟩
  · exact .inl ⟨f, hf, ea, w, hk⟩
  · exact .inr (.inl ⟨_, _, hr⟩)

theorem store_outcome (w : Width) (rs1 rs2 : RegIdx) (imm : Word) (s : State) :
    ExecOutcome (store w rs1 rs2 imm s) s := by
  rcases store_cases w rs1 rs2 imm s with ⟨f, hf, ea, hk⟩ | ⟨hm, hr⟩
  · exact .inl ⟨f, hf, ea, w, hk⟩
  · exact .inr (.inr ⟨_, _, w, hm, hr⟩)

/-- Everything an instruction can do. -/
theorem exec_cases (i : Instr) (s : State) : ExecOutcome (exec i s) s := by
  cases i
  case addi => exact .inr (.inl ⟨_, _, rfl⟩)
  case add => exact .inr (.inl ⟨_, _, rfl⟩)
  case sb => exact store_outcome _ _ _ _ s
  case sh => exact store_outcome _ _ _ _ s
  case sw => exact store_outcome _ _ _ _ s
  case sd => exact store_outcome _ _ _ _ s
  all_goals exact load_outcome _ _ _ _ _ s

/-- Everything a step can do (R107). -/
theorem step_cases (s : State) :
    (s.status ≠ .running ∧ step s = .next s) ∨
    (s.status = .running ∧
      ((∃ i rest, decodeBytes s.bytesAtPc = .ok (i, rest) ∧ step s = finishStep (exec i s)) ∨
       (∃ w, decodeBytes s.bytesAtPc = .error (.illegalInstruction w) ∧
         step s = .next (s.raise (.illegalInstruction w))) ∨
       (decodeBytes s.bytesAtPc = .error .truncated ∧ step s = .refused .noWordAtPc))) := by
  unfold step
  cases hs : s.status with
  | running =>
    refine .inr ⟨rfl, ?_⟩
    rcases hd : decodeBytes s.bytesAtPc with (w | _) | ⟨i, rest⟩
    · exact .inr (.inl ⟨w, rfl, rfl⟩)
    · exact .inr (.inr ⟨rfl, rfl⟩)
    · exact .inl ⟨i, rest, rfl, rfl⟩
  | completed => exact .inl ⟨by simp, rfl⟩
  | faulted f => exact .inl ⟨by simp, rfl⟩

end Sys2Proof.Machine
end

