-- ==== Sys2Proof/Laws/Run.lean ====
section
/-! SUPPORT. One more step of a run (R244), and the end of a step (R107). -/

namespace Sys2Proof.Machine

/-- The host's run of any machine takes one step and goes on. -/
theorem hostRun_next (M : Host.Core) (s t : M.State) (k : Nat) (h : M.step s = .next t) :
    M.run (k + 1) s = M.run k t := by
  simp [Host.Core.run, h]

/-- A run of the engine takes one step and goes on. -/
theorem run_next (s t : State) (k : Nat) (h : step s = .next t) : core.run (k + 1) s = core.run k t :=
  hostRun_next core s t k h

/-- The end of a step: the PC advances exactly when the instruction left STATUS Running (R107). -/
theorem State.afterExecute_eq (s : State) : s.afterExecute = if s.status = .running then s.advance else s := by
  unfold State.afterExecute
  cases s.status <;> simp

end Sys2Proof.Machine
end

