-- ==== Sys2Proof/Tests/Slice0.lean ====
section
/-! SUPPORT. Small tests, each about one operation or one step, with results from the spec's examples and vectors
(95_test_vectors.md); and for each statement with hypotheses a state and operands that meet them. -/

namespace Sys2Proof.Tests

open Sys2Proof.Machine

/-- A running engine with the program of `words`, x1 and x2 preset, and Memory as given; all else 0. -/
def engine (words : List InstrWord) (x1 x2 : Word) (mem : Memory) : State :=
  { State.reset with
    regs := (State.reset.regs.set 1 x1).set 2 x2
    mem := mem
    imem := words.flatMap bytesOfWord
    status := .running }

/-- The bytes 80 FF 7F 01 FE DC BA 98 at BASE, as in the load vectors L2.2. -/
def loadMem : Memory :=
  [(0, 0x80), (1, 0xFF), (2, 0x7F), (3, 0x01), (4, 0xFE), (5, 0xDC), (6, 0xBA), (7, 0x98)]

/-- The next state, if the outcome is one. -/
def nextOf : Host.Outcome State Fault Refusal → Option State
  | .next s => some s
  | .fault _ => none
  | .refused _ => none

theorem nextOf_some (o : Host.Outcome State Fault Refusal) (s : State) (h : nextOf o = some s) : o = .next s := by
  cases o <;> simp_all [nextOf]

/-- The answer of a Bus access, if it is no fault. -/
def okOf {α : Type} : Except Fault α → Option α
  | .ok a => some a
  | .error _ => none

theorem okOf_some {α : Type} (e : Except Fault α) (a : α) (h : okOf e = some a) : e = .ok a := by
  cases e <;> simp_all [okOf]

/-- Register `i` and STATUS after one step. -/
def stepReg (s : State) (i : RegIdx) : Option (Word × Status) := (nextOf (step s)).map (fun t => (t.readReg i, t.status))

/-- Memory, PC and STATUS after one step. -/
def stepMem (s : State) : Option (Memory × Word × Status) := (nextOf (step s)).map (fun t => (t.mem, t.pc, t.status))

/-! ### WellFormed: one ill-formed term for each check -/

theorem test_wf_lb : (Instr.lb 1 2 2048).wellFormed = false := by decide
theorem test_wf_lh : (Instr.lh 1 2 (-2049)).wellFormed = false := by decide
theorem test_wf_lw : (Instr.lw 1 2 0x7FFFFFFFFFFFFFFF).wellFormed = false := by decide
theorem test_wf_ld : (Instr.ld 1 2 2048).wellFormed = false := by decide
theorem test_wf_lbu : (Instr.lbu 1 2 4095).wellFormed = false := by decide
theorem test_wf_lhu : (Instr.lhu 1 2 2048).wellFormed = false := by decide
theorem test_wf_lwu : (Instr.lwu 1 2 0xFFFFF800).wellFormed = false := by decide
theorem test_wf_addi : (Instr.addi 1 2 2048).wellFormed = false := by decide
theorem test_wf_sb : (Instr.sb 1 2 (-2049)).wellFormed = false := by decide
theorem test_wf_sh : (Instr.sh 1 2 2048).wellFormed = false := by decide
theorem test_wf_sw : (Instr.sw 1 2 2048).wellFormed = false := by decide
theorem test_wf_sd : (Instr.sd 1 2 2048).wellFormed = false := by decide
/-- The two ends of the range, and ADD, are well-formed. -/
theorem test_wf_accepts :
    (Instr.addi 1 2 2047).wellFormed = true ∧ (Instr.sd 1 2 (-2048)).wellFormed = true ∧
      (Instr.add 31 31 31).wellFormed = true := by decide

/-! ### Decoding: words written out field by field from R92 and R93 (imm, rs1, funct3, rd, opcode for I; imm[11:5], rs2,
rs1, funct3, imm[4:0], opcode for S; funct7, rs2, rs1, funct3, rd, opcode for R) -/

theorem test_decode_lb : decode 0b111111111111_00001_000_00101_0000011 = .ok (.lb 5 1 (-1)) := rfl
theorem test_decode_lh : decode 0b000000000001_00001_001_00101_0000011 = .ok (.lh 5 1 1) := rfl
theorem test_decode_lw : decode 0b111111110000_00010_010_00011_0000011 = .ok (.lw 3 2 (-16)) := rfl
theorem test_decode_ld : decode 0b000000000100_00001_011_00101_0000011 = .ok (.ld 5 1 4) := rfl
theorem test_decode_lbu : decode 0b011111111111_00001_100_11111_0000011 = .ok (.lbu 31 1 2047) := rfl
theorem test_decode_lhu : decode 0b100000000000_10000_101_00101_0000011 = .ok (.lhu 5 16 (-2048)) := rfl
theorem test_decode_lwu : decode 0b000000010000_00001_110_00100_0000011 = .ok (.lwu 4 1 16) := rfl
theorem test_decode_addi : decode 0b000000101010_00000_000_00010_0010011 = .ok (.addi 2 0 42) := rfl
theorem test_decode_sb : decode 0b1111111_00010_00001_000_11111_0100011 = .ok (.sb 1 2 (-1)) := rfl
theorem test_decode_sh : decode 0b0000000_00010_00001_001_00001_0100011 = .ok (.sh 1 2 1) := rfl
theorem test_decode_sw : decode 0b1111111_00001_00010_010_10000_0100011 = .ok (.sw 2 1 (-16)) := rfl
theorem test_decode_sd : decode 0b0000001_00000_00001_011_00000_0100011 = .ok (.sd 1 0 32) := rfl
theorem test_decode_add : decode 0b0000000_00010_00001_000_00011_0110011 = .ok (.add 3 1 2) := rfl

/-- The illegal words V-D1 to V-D18. -/
theorem test_decode_illegal :
    ([0x00000000, 0xFFFFFFFF, 0x0000F183, 0x00007003, 0x0020C023, 0x00004023, 0x0050C093, 0x00001013, 0x40108133,
      0x02108133, 0x0010A033, 0x00000073, 0x0000006F, 0x00000037, 0x0000000F, 0x0000202F,
      0x00000001] : List InstrWord).all (fun w => select w = none) = true := by decide

/-- The S-immediate's two fields: `SB x2,2047(x1)` is 0x7E208FA3 (L2.4). -/
theorem test_encode_sb : encode (.sb 1 2 2047) = 0x7E208FA3 := by decide
/-- `ADDI x2,x1,-2048` is 0x80008113 (V-I3). -/
theorem test_encode_addi : encode (.addi 2 1 (-2048)) = 0x80008113 := by decide
/-- The opcode table's numbering: `ADD x2,x1,x1` (R180). -/
theorem test_decodeTableWord : decodeTableWord 32 0x00108133 = some (.add 2 1 1) := rfl

/-- The texts the source's examples write: `SB x2,0(x1)`, `LB x3,0(x1)`, `ADDI x2,x0,42` (R105) and the negative offset
of `SW x1,-16(x2)` (R163). -/
theorem test_asmText : asmText (.sb 1 2 0) = "SB x2,0(x1)" ∧ asmText (.lb 3 1 0) = "LB x3,0(x1)" ∧
    asmText (.addi 2 0 42) = "ADDI x2,x0,42" ∧ asmText (.sw 2 1 (-16)) = "SW x1,-16(x2)" := by decide

/-! ### One step per vector (L2.2 to L2.5) -/

/-- V-L1: sign of a byte. -/
theorem test_lb : stepReg (engine [0x00008283] 0x80000000 0 loadMem) 5 = some (0xFFFFFFFFFFFFFF80, .completed) := by
  decide
/-- V-L23: one below BASE. -/
theorem test_lb_unmapped : stepReg (engine [0xFFF08283] 0x80000000 0 []) 5 =
    some (0, .faulted (.unmappedAddress 0x7FFFFFFF .byte)) := by decide
/-- V-L5: misaligned, positive. -/
theorem test_lh_misaligned : stepReg (engine [0x00109283] 0x80000000 0 loadMem) 5 = some (0x7FFF, .completed) := by
  decide
/-- V-L6: byte order and sign. -/
theorem test_lh : stepReg (engine [0x00409283] 0x80000000 0 loadMem) 5 = some (0xFFFFFFFFFFFFDCFE, .completed) := by
  decide
/-- V-L8: misaligned, negative. -/
theorem test_lw : stepReg (engine [0x0010A283] 0x80000000 0 loadMem) 5 = some (0xFFFFFFFFFE017FFF, .completed) := by
  decide
/-- V-L27: the last byte past the window. -/
theorem test_lw_top : stepReg (engine [0x0000A283] 0x87FFFFFD 0 []) 5 =
    some (0, .faulted (.memoryFault 0x87FFFFFD .word)) := by decide
/-- V-L22: rd = rs1. -/
theorem test_ld_base : stepReg (engine [0x0000B083] 0x80000000 0 loadMem) 1 = some (0x98BADCFE017FFF80, .completed) := by
  decide
/-- V-L24: the highest doubleword. -/
theorem test_ld_top : stepReg (engine [0x0000B283] 0x87FFFFF8 0 []) 5 = some (0, .completed) := by decide
/-- V-L15. -/
theorem test_lbu : stepReg (engine [0x0040C283] 0x80000000 0 loadMem) 5 = some (0xFE, .completed) := by decide
/-- V-L29: the first byte past the window. -/
theorem test_lbu_top : stepReg (engine [0x0000C283] 0x88000000 0 []) 5 =
    some (0, .faulted (.memoryFault 0x88000000 .byte)) := by decide
/-- V-L16. -/
theorem test_lhu : stepReg (engine [0x0000D283] 0x80000000 0 loadMem) 5 = some (0xFF80, .completed) := by decide
/-- V-L20. -/
theorem test_lwu : stepReg (engine [0x0010E283] 0x80000000 0 loadMem) 5 = some (0xFE017FFF, .completed) := by decide
/-- V-L34: rd = x0 does not suppress the access. -/
theorem test_lb_x0 : stepReg (engine [0x00008003] 0 0 []) 0 = some (0, .faulted (.unmappedAddress 0 .byte)) := by decide
/-- V-I6: the sign reaches bit 63. -/
theorem test_addi_negative : stepReg (engine [0xFF008113] 0x80000000 0 []) 2 = some (0x7FFFFFF0, .completed) := by decide
/-- V-I5: wraps. -/
theorem test_addi_wraps : stepReg (engine [0x00108113] 0xFFFFFFFFFFFFFFFF 0 []) 2 = some (0, .completed) := by decide
/-- V-A6. -/
theorem test_add_wraps : stepReg (engine [0x002081B3] 0xFFFFFFFFFFFFFFFF 0xFFFFFFFFFFFFFFFF []) 3 =
    some (0xFFFFFFFFFFFFFFFE, .completed) := by decide
/-- `ADD x1,x1,x1` with x1 = 7 (L2.5). -/
theorem test_add_same : stepReg (engine [0x001080B3] 7 0 []) 1 = some (0xE, .completed) := by decide
/-- V-S2, with the PC at the end of the program. -/
theorem test_sb : stepMem (engine [0x002081A3] 0x80000000 0x0123456789ABCDEF []) =
    some ([(3, 0xEF)], 4, .completed) := by decide
/-- V-S9: nothing written, PC kept. -/
theorem test_sb_unmapped : stepMem (engine [0xFE208FA3] 0x80000000 0x0123456789ABCDEF []) =
    some ([], 0, .faulted (.unmappedAddress 0x7FFFFFFF .byte)) := by decide
/-- V-S4: misaligned. -/
theorem test_sh : stepMem (engine [0x002091A3] 0x80000000 0x0123456789ABCDEF []) =
    some ([(3, 0xEF), (4, 0xCD)], 4, .completed) := by decide
/-- V-S12: no partial store. -/
theorem test_sh_top : stepMem (engine [0x00209023] 0x87FFFFFF 0x0123456789ABCDEF []) =
    some ([], 0, .faulted (.memoryFault 0x87FFFFFF .half)) := by decide
/-- V-S14: base below BASE, address at BASE. -/
theorem test_sw : stepMem (engine [0x0020A223] 0x7FFFFFFC 0x0123456789ABCDEF []) =
    some ([(0, 0xEF), (1, 0xCD), (2, 0xAB), (3, 0x89)], 4, .completed) := by decide
/-- V-S8: misaligned. -/
theorem test_sd : stepMem (engine [0x0020B1A3] 0x80000000 0x0123456789ABCDEF []) =
    some ([(3, 0xEF), (4, 0xCD), (5, 0xAB), (6, 0x89), (7, 0x67), (8, 0x45), (9, 0x23), (10, 0x01)], 4, .completed) := by
  decide
/-- `SD x0,0(x1)` clears what stands there, and the cleared bytes leave no entry (L2.4). -/
theorem test_sd_zero : stepMem (engine [0x0000B023] 0x80000000 0 loadMem) = some ([], 4, .completed) := by decide

/-! ### Step, status and host (L2.7) -/

/-- V-D1. -/
theorem test_step_illegal : stepMem (engine [0x00000000] 0 0 []) =
    some ([], 0, .faulted (.illegalInstruction 0)) := by decide
/-- A step before the end of the program leaves the engine Running at the next word. -/
theorem test_step_running : stepMem (engine [0x00100093, 0x00000000] 0 0 []) = some ([], 4, .running) := by decide
/-- Fetch at PC 4 takes IMEM[4..7], the second word `ADDI x2,x0,5`, not the first (R26, R91). -/
theorem test_step_at_pc_four : nextOf (step { engine [0x00100093, 0x00500113, 0x00000000] 0 0 [] with pc := 4 }) =
    some { engine [0x00100093, 0x00500113, 0x00000000] 0 5 [] with pc := 8 } := by decide
/-- V-H1, V-H4: a completed engine does not move. -/
theorem test_step_completed : nextOf (step State.reset) = some State.reset := by decide
/-- V-H2: a program of six bytes is refused. -/
theorem test_construct_refused :
    construct [0, 0, 0, 0, 0, 0] (Vector.replicate 32 0) [] [] true = .refused .programLength := rfl
/-- withFetchWord at reset: the word is what the next step runs. -/
theorem test_withFetchWord : stepReg (State.reset.withFetchWord 32 0x02A00113) 2 = some (42, .completed) := by decide
/-- V-H5's first step by Run with one step's program: `ADDI x1,x0,5` (scenario B). -/
theorem test_run : (nextOf (run (engine [0x00500093] 0 0 []))).map (fun t => (t.readReg 1, t.pc)) = some (5, 4) := by
  decide

/-! ### The CSR port (L2.6) -/

/-- The cells MIE = 0xAAA and MIDELEG = 0x222 of V-C1. -/
def csrState : State := { State.reset with csrs := [(0x303, 0x222), (0x304, 0xAAA)] }

/-- V-C1, V-C2, V-C3. -/
theorem test_csr_sie : csrRead csrState 0x104 = .ok 0x222 ∧
    (afterCsrWrite csrState 0x104 0xFFFF).csrs = [(0x303, 0x222), (0x304, 0xAAA)] ∧
    (afterCsrWrite csrState 0x104 0).csrs = [(0x303, 0x222), (0x304, 0x888)] := ⟨rfl, by decide, by decide⟩
/-- V-C9, V-C10: the fault, and no reduction modulo 4096. -/
theorem test_csr_range : csrRead State.reset 4096 = .error (.csrRangeFault 4096) ∧
    csrWrite csrState 0x1104 5 = .error (.csrRangeFault 0x1104) := ⟨rfl, rfl⟩
/-- V-C12: the value supplied for 0x104 is ignored. -/
theorem test_csr_construct : constructCsrs [(0x104, 0xFF), (0x304, 0x0F), (0x303, 0x03)] =
    [(0x303, 0x03), (0x304, 0x0F)] := by decide

/-! ### Witnesses: each statement's hypotheses are met -/

/-- A running engine at PC 0 with one instruction, `ADDI x1,x0,5`, and bytes in Memory. -/
def running : State := engine [0x00500093] 0 0 loadMem

/-- The invariant holds of it (StepKeepsInv, StepAdvancesByFour, StepAlwaysAnswers, EveryRunEnds, RunExecutesInOrder,
CsrWriteKeepsInv). -/
theorem witness_inv : running.Inv :=
  ⟨by decide, by decide, by decide, (by decide : (0 : Nat) < 4), by decide, by decide⟩

/-- Its step answers a next state (InstructionStoreIsImmutable, CsrsAreInert, StepKeepsInv, StepAdvancesByFour). -/
theorem witness_step : running.status = .running ∧
    step running = .next { (engine [0x00500093] 5 0 loadMem) with pc := 4, status := .completed } := ⟨rfl, rfl⟩

/-- Runs of no step and of one step from it (RunExecutesInOrder). -/
theorem witness_run : running.pc = 0 ∧ core.run 0 running = .next running ∧
    core.run 1 running = .next { (engine [0x00500093] 5 0 loadMem) with pc := 4, status := .completed } :=
  ⟨rfl, rfl, run_next running _ 0 witness_step.2⟩

/-- A one-step run that ends in a fault at PC 0 (the second clause of RunExecutesInOrder). -/
theorem witness_faulted_run : core.run 1 (engine [0x40108133] 0 0 []) =
    .next ((engine [0x40108133] 0 0 []).raise (.illegalInstruction 0x40108133)) := run_next _ _ 0 rfl

/-- DecodeOfEncode and EncodeOfDecode. -/
theorem witness_wellFormed : (Instr.sw 2 1 (-16)).WellFormed ∧ decode 0xFE112823 = .ok (.sw 2 1 (-16)) :=
  ⟨by decide, rfl⟩

/-- The two hypotheses of ExactlyTableWordsDecode, at both edges of the LOAD and STORE selections. -/
theorem witness_tableWord : isTableWord 0x00006003 ∧ ¬ isTableWord 0x00007003 ∧ isTableWord 0x00003023 ∧
    ¬ isTableWord 0x00004023 ∧ ¬ isTableWord 0x40108133 ∧ isTableWord 0x00000033 := by decide

/-- IllegalWordHaltsEngine, at PC 4. -/
theorem witness_illegal : (engine [0x00500093, 0x40108133] 0 0 []).status = .running ∧
    (engine [0x00500093, 0x40108133] 0 0 []).imem.drop (4 : Word).toNat = [0x33, 0x81, 0x10, 0x40] ∧
    ¬ isTableWord ((0x40 : Byte) ++ (0x10 : Byte) ++ (0x81 : Byte) ++ (0x33 : Byte)) := by decide

/-- The mask hypotheses of the 13 instruction statements. -/
theorem witness_masks : (0x00008183 &&& 0x0000707F#32 = 0x00000003) ∧ (0x00009283 &&& 0x0000707F#32 = 0x00001003) ∧
    (0x0000A183 &&& 0x0000707F#32 = 0x00002003) ∧ (0x0000B183 &&& 0x0000707F#32 = 0x00003003) ∧
    (0x0000C203 &&& 0x0000707F#32 = 0x00004003) ∧ (0x0000D283 &&& 0x0000707F#32 = 0x00005003) ∧
    (0x0000E203 &&& 0x0000707F#32 = 0x00006003) ∧ (0xFFF00093 &&& 0x0000707F#32 = 0x00000013) ∧
    (0x00208023 &&& 0x0000707F#32 = 0x00000023) ∧ (0x002090A3 &&& 0x0000707F#32 = 0x00001023) ∧
    (0xFE112823 &&& 0x0000707F#32 = 0x00002023) ∧ (0x0020B023 &&& 0x0000707F#32 = 0x00003023) ∧
    (0x00108133 &&& 0xFE00707F#32 = 0x00000033) := by decide

/-- The three address clauses of the load and store statements and of AddressMap, at the boundary values: the last
address below BASE; the first and the last address of an access of n bytes; the first one past it (n = 1, 2, 4, 8). -/
theorem witness_addresses :
    ((engine [] 0x7FFFFFFF 0 []).readReg 1 + 0).toNat < Config.base ∧
    mapped ((engine [] 0x80000000 0 []).readReg 1 + 0) 8 ∧
    mapped ((engine [] 0x87FFFFFF 0 []).readReg 1 + 0) 1 ∧ ¬ mapped ((engine [] 0x88000000 0 []).readReg 1 + 0) 1 ∧
    mapped ((engine [] 0x87FFFFFE 0 []).readReg 1 + 0) 2 ∧ ¬ mapped ((engine [] 0x87FFFFFF 0 []).readReg 1 + 0) 2 ∧
    mapped ((engine [] 0x87FFFFFC 0 []).readReg 1 + 0) 4 ∧ ¬ mapped ((engine [] 0x87FFFFFD 0 []).readReg 1 + 0) 4 ∧
    mapped ((engine [] 0x87FFFFF8 0 []).readReg 1 + 0) 8 ∧ ¬ mapped ((engine [] 0x87FFFFF9 0 []).readReg 1 + 0) 8 := by
  decide

/-- The memory-fault clause: at or above BASE and past the end, for the widths 1 and 8, and at the top of the address
space. -/
theorem witness_memoryFault :
    (Config.base ≤ (0x88000000 : Word).toNat ∧ (0x88000000 : Word).toNat - Config.base + 1 > Config.cap) ∧
    (Config.base ≤ (0x87FFFFF9 : Word).toNat ∧ (0x87FFFFF9 : Word).toNat - Config.base + 8 > Config.cap) ∧
    (Config.base ≤ (0xFFFFFFFFFFFFFFFF : Word).toNat ∧
      (0xFFFFFFFFFFFFFFFF : Word).toNat - Config.base + 1 > Config.cap) := by decide

/-- LoadFrame: a load that answers a next state. -/
theorem witness_loadFrame : Instr.lbu 5 1 4 ∈ [Instr.lb 5 1 4, .lh 5 1 4, .lw 5 1 4, .ld 5 1 4, .lbu 5 1 4, .lhu 5 1 4,
      .lwu 5 1 4] ∧
    exec (.lbu 5 1 4) (engine [] 0x80000000 0 loadMem) =
      .next ((engine [] 0x80000000 0 loadMem).writeReg 5 0xFE) := ⟨by decide, rfl⟩

/-- ArithmeticFrame: an ADD that answers a next state. -/
theorem witness_arithmeticFrame : Instr.add 3 1 2 ∈ [Instr.addi 3 1 0, .add 3 1 2] ∧
    exec (.add 3 1 2) (engine [] 5 10 []) = .next ((engine [] 5 10 []).writeReg 3 15) := ⟨by decide, rfl⟩

/-- StoreFrame: a store to canonical Memory that answers a next state, and an offset outside its bytes. -/
theorem witness_storeFrame : (Instr.sh 1 2 1, 2) ∈ [(Instr.sb 1 2 1, 1), (.sh 1 2 1, 2), (.sw 1 2 1, 4), (.sd 1 2 1, 8)] ∧
    (engine [] 0x80000000 0xBEEF []).mem.wf ∧
    exec (.sh 1 2 1) (engine [] 0x80000000 0xBEEF []) = .next (engine [] 0x80000000 0xBEEF [(1, 0xEF), (2, 0xBE)]) ∧
    effectiveAddress (engine [] 0x80000000 0xBEEF []) 1 1 = 0x80000001 ∧
    (0x80000001 : Word).toNat + 2 ≤ Config.base + 3 := ⟨by decide, by decide, nextOf_some _ _ (by decide), by decide, by decide⟩

/-- LoadWithinStore: the upper byte of a stored halfword. -/
theorem witness_loadWithinStore : (engine [] 0 0 []).mem.wf ∧
    memWrite (engine [] 0 0 []) 0x80000000 .half 0xBEEF = .ok (engine [] 0 0 [(0, 0xEF), (1, 0xBE)]) ∧
    1 + Width.byte.bytes ≤ Width.half.bytes := ⟨by decide, okOf_some _ _ (by decide), by decide⟩

/-- CsrReadPort, CsrWritePort, CsrRangeFaultChangesNothing: cells in form, and addresses on both sides of 4096. -/
theorem witness_csr : csrState.csrs.wf ∧ csrRead csrState 0x304 = .ok 0xAAA ∧ csrRead csrState 0x303 = .ok 0x222 ∧
    (4095 : Nat) < 4096 ∧ (4095 : Nat) ≠ 0x104 ∧ 4096 ≤ (4096 : Nat) := ⟨by decide, rfl, rfl, by decide, by decide, by decide⟩

/-- ConstructSetsState, ConstructedMeetsInv, ConstructRefusesBadLength: a program of one word, the empty one, and one
of five bytes. -/
theorem witness_construct : (bytesOfWord 0x13).length % 4 = 0 ∧ (bytesOfWord 0x13).length < 2 ^ 64 ∧
    ([] : List Byte).length % 4 = 0 ∧ (0 :: bytesOfWord 0x13).length % 4 ≠ 0 ∧
    construct [] (Vector.replicate 32 0) [] [] false = .next { State.reset with x0Hardwired := false } :=
  ⟨by decide, by decide, by decide, by decide, rfl⟩

/-- X0FollowsParameter: what is read back after writes to x5, x31 and x0 with x0 hardwired, and to x0 without (R23). -/
theorem witness_readBack : inspectX ((engine [] 1 2 []).writeReg 5 7) 5 = 7 ∧
    inspectX ((engine [] 1 2 []).writeReg 31 7) 31 = 7 ∧ inspectX ((engine [] 1 2 []).writeReg 5 7) 2 = 2 ∧
    inspectX ((engine [] 1 2 []).writeReg 0 7) 0 = 0 ∧ inspectX ((engine [] 1 2 []).writeReg 0 7) 1 = 1 ∧
    inspectX ({ engine [] 1 2 [] with x0Hardwired := false }.writeReg 0 7) 0 = 7 := by decide

/-- X0FollowsParameter: ADDI to x0 under both values of the parameter. -/
theorem witness_x0 : exec (.addi 0 0 7) (engine [] 0 0 []) = .next (engine [] 0 0 []) ∧
    exec (.addi 0 0 7) { engine [] 0 0 [] with x0Hardwired := false } =
      .next ({ engine [] 0 0 [] with x0Hardwired := false }.writeReg 0 7) := ⟨rfl, rfl⟩

/-- StepRunsDecodedInstruction: an instruction that leaves STATUS Running, and one that faults. -/
theorem witness_stepRuns :
    (engine [0x00500093] 0 0 []).imem.drop (engine [0x00500093] 0 0 []).pc.toNat = [0x93, 0x00, 0x50, 0x00] ∧
    decode ((0x00 : Byte) ++ (0x50 : Byte) ++ (0x00 : Byte) ++ (0x93 : Byte)) = .ok (.addi 1 0 5) ∧
    exec (.addi 1 0 5) (engine [0x00500093] 0 0 []) = .next (engine [0x00500093] 5 0 []) ∧
    (engine [0x00500093] 5 0 []).status = .running ∧
    exec (.lb 0 1 0) (engine [0x00008003] 0 0 []) =
      .next ((engine [0x00008003] 0 0 []).raise (.unmappedAddress 0 .byte)) := ⟨rfl, rfl, rfl, rfl, rfl⟩

/-- FinalStatesStayFinal: both final kinds of status. -/
theorem witness_final : State.reset.status ≠ .running ∧ (State.reset.raise (.illegalInstruction 0)).status ≠ .running := by
  decide

/-- FaultIsPreciseAndFinal, FaultTellsItsCause: a step that ends in each kind of fault. -/
theorem witness_faults :
    step (engine [0x00000000] 0 0 []) = .next ((engine [0x00000000] 0 0 []).raise (.illegalInstruction 0)) ∧
    step (engine [0x0000B283] 0 0 []) = .next ((engine [0x0000B283] 0 0 []).raise (.unmappedAddress 0 .dword)) ∧
    step (engine [0x0000B283] 0x87FFFFF9 0 []) =
      .next ((engine [0x0000B283] 0x87FFFFF9 0 []).raise (.memoryFault 0x87FFFFF9 .dword)) := ⟨rfl, rfl, rfl⟩

/-- AssemblerImmediates and PseudoInstructions: the ends of both ranges, and `li x5,-1`. -/
theorem witness_assembler : (-2048 : Int) ≤ -2048 ∧ (2047 : Int) ≤ 2047 ∧ (2047 : Int) < 2048 ∧ (0xFFF : Nat) ≤ 0xFFF ∧
    (0xFFF : Nat) < 0x1000 ∧ asmPattern 0xFFF = some (-1) ∧ asmLi 5 (-1) = some (.addi 5 0 (-1)) ∧
    State.reset.readReg 0 = 0 := by decide

end Sys2Proof.Tests
end

section
/-! SUPPORT and PROOFS for the state's obligations (10_state.md): the rules of the CSR port, what a step that answers a
next state has done, the invariant under each update a step makes, and the independence of `exec` from the state an
instruction cannot see. -/

namespace Sys2Proof.Machine

/-! ### The CSR port -/

/-- From NCSR on a read is the range fault (R33). -/
theorem csrRead_outOfRange (s : State) (a : Nat) (h : Config.ncsr ≤ a) :
    csrRead s a = .error (.csrRangeFault a) := if_pos h

/-- A read of 0x104 is the view MIE & MIDELEG (R33). -/
theorem csrRead_sie (s : State) :
    csrRead s Config.sie = .ok (readCell s.csrs Config.mie &&& readCell s.csrs Config.mideleg) := rfl

/-- A read of any other address in range is its cell (R33). -/
theorem csrRead_cell (s : State) (a : Nat) (h : a < Config.ncsr) (hs : a ≠ Config.sie) :
    csrRead s a = .ok (readCell s.csrs a) := by
  rw [csrRead, if_neg (Nat.not_le_of_lt h), if_neg hs]

/-- Settles O25: the three branches of the read port. -/
theorem csrReadPort : Obligations.CsrReadPort := fun s a =>
  ⟨csrRead_outOfRange s a, csrRead_sie s, csrRead_cell s a⟩

/-- From NCSR on a write is the range fault (R34). -/
theorem csrWrite_outOfRange (s : State) (a : Nat) (v : Word) (h : Config.ncsr ≤ a) :
    csrWrite s a v = .error (.csrRangeFault a) := if_pos h

/-- A write to 0x104 writes MIE, taking from the value the bits MIDELEG delegates (R34). -/
theorem csrWrite_sie (s : State) (v : Word) :
    csrWrite s Config.sie v = .ok { s with
      csrs := writeCell s.csrs Config.mie
        ((readCell s.csrs Config.mie &&& ~~~(readCell s.csrs Config.mideleg)) |||
          (v &&& readCell s.csrs Config.mideleg)) } := rfl

/-- A write to any other address in range writes its cell (R34). -/
theorem csrWrite_cell (s : State) (a : Nat) (v : Word) (h : a < Config.ncsr) (hs : a ≠ Config.sie) :
    csrWrite s a v = .ok { s with csrs := writeCell s.csrs a v } := by
  rw [csrWrite, if_neg (Nat.not_le_of_lt h), if_neg hs]

/-- The written cell reads back what was written. -/
theorem csrRead_writeCell_same (s : State) (hw : s.csrs.wf) (k : Nat) (x : Word) (hk : k < Config.ncsr)
    (hs : k ≠ Config.sie) : csrRead { s with csrs := writeCell s.csrs k x } k = .ok x := by
  rw [csrRead_cell _ k hk hs, readCell_writeCell _ hw.1, if_pos rfl]

/-- Writing a cell changes what no other address but the view reads, in range or not. -/
theorem csrRead_writeCell_other (s : State) (hw : s.csrs.wf) (k b : Nat) (x : Word) (hb : b ≠ k)
    (hs : b ≠ Config.sie) : csrRead { s with csrs := writeCell s.csrs k x } b = csrRead s b := by
  by_cases hr : b < Config.ncsr
  · rw [csrRead_cell _ b hr hs, csrRead_cell _ b hr hs, readCell_writeCell _ hw.1, if_neg hb]
  · have hr := Nat.le_of_not_lt hr
    rw [csrRead_outOfRange _ b hr, csrRead_outOfRange _ b hr]

/-- What a cell other than 0x104 holds, from what the port reads there. -/
theorem readCell_of_csrRead {s : State} {k : Nat} {x : Word} (hk : k < Config.ncsr) (hs : k ≠ Config.sie)
    (h : csrRead s k = .ok x) : readCell s.csrs k = x :=
  Except.ok.inj ((csrRead_cell s k hk hs).symm.trans h)

/-- What the view reads follows from what MIE and MIDELEG read (R33). -/
theorem csrRead_sie_of_cells (s : State) (m d : Word) (hm : csrRead s Config.mie = .ok m)
    (hd : csrRead s Config.mideleg = .ok d) : csrRead s Config.sie = .ok (m &&& d) := by
  rw [csrRead_sie, readCell_of_csrRead (by decide) (by decide) hm, readCell_of_csrRead (by decide) (by decide) hd]

/-- Of a value merged under a mask, the mask shows the new bits. -/
theorem and_mask_of_merge {n : Nat} (old new mask : BitVec n) :
    ((old &&& ~~~mask) ||| (new &&& mask)) &&& mask = new &&& mask := by
  ext j hj
  cases h : mask[j] <;> simp [h]

/-- A write to the view, seen through the read port (R34). -/
theorem csrWrite_sie_port (s : State) (v mie mideleg : Word) (hw : s.csrs.wf)
    (hm : csrRead s Config.mie = .ok mie) (hd : csrRead s Config.mideleg = .ok mideleg) :
    ∃ s', csrWrite s Config.sie v = .ok s' ∧ s' = { s with csrs := s'.csrs } ∧ s'.csrs.wf ∧
      csrRead s' Config.mie = .ok ((mie &&& ~~~mideleg) ||| (v &&& mideleg)) ∧
      csrRead s' Config.sie = .ok (v &&& mideleg) ∧
      ∀ b, b ≠ Config.mie → b ≠ Config.sie → csrRead s' b = csrRead s b := by
  have hok := csrWrite_sie s v
  rw [readCell_of_csrRead (by decide) (by decide) hm, readCell_of_csrRead (by decide) (by decide) hd] at hok
  have hmie := csrRead_writeCell_same s hw Config.mie ((mie &&& ~~~mideleg) ||| (v &&& mideleg))
    (by decide) (by decide)
  have hother := fun b => csrRead_writeCell_other s hw Config.mie b ((mie &&& ~~~mideleg) ||| (v &&& mideleg))
  have hdel := (hother Config.mideleg (by decide) (by decide)).trans hd
  refine ⟨_, hok, rfl, writeCell_csrs_wf _ hw _ _ (by decide) (by decide), hmie, ?_, hother⟩
  rw [csrRead_sie_of_cells _ _ _ hmie hdel, and_mask_of_merge]

/-- A write to any other address in range, seen through the read port (R34). -/
theorem csrWrite_cell_port (s : State) (a : Nat) (v : Word) (hw : s.csrs.wf) (ha : a < Config.ncsr)
    (hs : a ≠ Config.sie) :
    ∃ s', csrWrite s a v = .ok s' ∧ s' = { s with csrs := s'.csrs } ∧ s'.csrs.wf ∧ csrRead s' a = .ok v ∧
      ∀ b, b ≠ a → b ≠ Config.sie → csrRead s' b = csrRead s b :=
  ⟨_, csrWrite_cell s a v ha hs, rfl, writeCell_csrs_wf _ hw a v ha hs, csrRead_writeCell_same s hw a v ha hs,
    fun b => csrRead_writeCell_other s hw a b v⟩

/-- Settles O26, by the two branches of a write in range. -/
theorem csrWritePort : Obligations.CsrWritePort := by
  intro s a v mie mideleg hw hm hd
  refine ⟨csrWrite_outOfRange s a v, fun ha => ?_⟩
  by_cases hs : a = Config.sie
  · subst hs
    obtain ⟨s', hok, hrest, hwf, hview⟩ := csrWrite_sie_port s v mie mideleg hw hm hd
    exact ⟨s', hok, hrest, hwf, fun _ => hview, fun h => absurd rfl h⟩
  · obtain ⟨s', hok, hrest, hwf, hread, hother⟩ := csrWrite_cell_port s a v hw ha hs
    exact ⟨s', hok, hrest, hwf, fun h => absurd h hs, fun _ => ⟨hread, hother, csrRead_sie_of_cells s'⟩⟩

/-! ### Registers -/

/-- Every register but x0 reads its cell, and so does x0 where it is not hardwired (R10). -/
theorem readReg_eq_cell (s : State) (k : RegIdx) (h : ¬ (s.x0Hardwired = true ∧ k = 0)) :
    s.readReg k = s.regs[k.toNat]'k.isLt := if_neg h

/-- Where x0 is hardwired it reads 0 (R10). -/
theorem readReg_zero_of_hardwired (s : State) (hx : s.x0Hardwired = true) : s.readReg 0 = 0 := if_pos ⟨hx, rfl⟩

/-- A write to any register but a hardwired x0 sets its cell (R10). -/
theorem writeReg_eq_setCell (s : State) (j : RegIdx) (v : Word) (h : ¬ (s.x0Hardwired = true ∧ j = 0)) :
    s.writeReg j v = { s with regs := s.regs.set j.toNat v j.isLt } := if_neg h

/-- A write to a hardwired x0 is discarded (R10). -/
theorem writeReg_zero_of_hardwired (s : State) (hx : s.x0Hardwired = true) (v : Word) : s.writeReg 0 v = s :=
  if_pos ⟨hx, rfl⟩

/-- The cell of a register other than x0 is not the cell X[0]. -/
theorem toNat_ne_zero_of_ne_x0 {k : RegIdx} (h : k ≠ 0) : k.toNat ≠ 0 := BitVec.toNat_ne_iff_ne.2 h

/-- A register write changes registers alone (R10). -/
theorem writeReg_eq_setRegs (s : State) (j : RegIdx) (v : Word) :
    s.writeReg j v = { s with regs := (s.writeReg j v).regs } := by
  unfold State.writeReg
  split <;> rfl

/-- Where x0 is hardwired a register write leaves the cell X[0] (R10). -/
theorem writeReg_x0Cell_of_hardwired (s : State) (hx : s.x0Hardwired = true) (j : RegIdx) (v : Word) :
    (s.writeReg j v).regs[0] = s.regs[0] := by
  by_cases hj : j = 0
  · rw [hj, writeReg_zero_of_hardwired s hx]
  · rw [writeReg_eq_setCell s j v (fun h => hj h.2)]
    exact Vector.getElem_set_ne j.isLt (by decide) (toNat_ne_zero_of_ne_x0 hj)

/-- A register read back after a write where x0 is hardwired (R10). -/
theorem readReg_writeReg_of_hardwired (s : State) (hx : s.x0Hardwired = true) (j k : RegIdx) (v : Word) :
    (s.writeReg j v).readReg k = if k = j ∧ j ≠ 0 then v else s.readReg k := by
  rw [State.readReg_writeReg]
  by_cases hk : k = 0
  · subst hk
    rw [if_pos ⟨hx, rfl⟩, if_neg (fun h => h.2 h.1.symm), readReg_zero_of_hardwired s hx]
  · rw [if_neg (fun h => hk h.2)]
    by_cases hkj : k = j
    · rw [if_pos hkj, if_pos ⟨hkj, hkj ▸ hk⟩]
    · rw [if_neg hkj, if_neg (fun h => hkj h.1)]

/-- A register read back after a write where x0 is a plain cell (R10). -/
theorem readReg_writeReg_of_plain (s : State) (hx : s.x0Hardwired = false) (j k : RegIdx) (v : Word) :
    (s.writeReg j v).readReg k = if k = j then v else s.readReg k := by
  rw [State.readReg_writeReg, if_neg (by simp [hx])]

/-! ### What an instruction cannot see -/

/-- The change `g` of the state `s` touches nothing that an instruction reads, and commutes with every update an
instruction makes. -/
structure UnseenChange (g : State → State) (s : State) : Prop where
  readReg : ∀ i, (g s).readReg i = s.readReg i
  mem : (g s).mem = s.mem
  raise : ∀ f, (g s).raise f = g (s.raise f)
  writeReg : ∀ i v, (g s).writeReg i v = g (s.writeReg i v)
  setMem : ∀ m, { g s with mem := m } = g { s with mem := m }

section
variable {g : State → State} {s t : State} (hg : UnseenChange g s)
include hg

theorem effectiveAddress_of_unseenChange (rs1 : RegIdx) (imm : Word) :
    effectiveAddress (g s) rs1 imm = effectiveAddress s rs1 imm := by
  rw [effectiveAddress, hg.readReg, effectiveAddress]

theorem memRead_of_unseenChange (a : Word) (w : Width) : memRead (g s) a w = memRead s a w := by
  simp only [memRead, memoryLoad, hg.mem]

theorem memWrite_of_unseenChange (a : Word) (w : Width) (v : Word) :
    memWrite (g s) a w v = (memWrite s a w v).map g := by
  simp only [memWrite, memoryStore, hg.mem, hg.setMem]
  split_ifs <;> rfl

theorem load_of_unseenChange (w : Width) (ext : Word → Word) (rd rs1 : RegIdx) (imm : Word)
    (h : load w ext rd rs1 imm s = .next t) : load w ext rd rs1 imm (g s) = .next (g t) := by
  unfold load at h ⊢
  rw [effectiveAddress_of_unseenChange hg, memRead_of_unseenChange hg]
  cases hr : memRead s (effectiveAddress s rs1 imm) w with
  | error f => rw [hr] at h; cases h; exact congrArg _ (hg.raise f)
  | ok raw => rw [hr] at h; cases h; exact congrArg _ (hg.writeReg rd _)

theorem store_of_unseenChange (w : Width) (rs1 rs2 : RegIdx) (imm : Word)
    (h : store w rs1 rs2 imm s = .next t) : store w rs1 rs2 imm (g s) = .next (g t) := by
  unfold store at h ⊢
  rw [effectiveAddress_of_unseenChange hg, hg.readReg, memWrite_of_unseenChange hg]
  cases hr : memWrite s (effectiveAddress s rs1 imm) w (s.readReg rs2) with
  | error f => rw [hr] at h; cases h; exact congrArg _ (hg.raise f)
  | ok s' => rw [hr] at h; cases h; rfl

/-- An instruction does the same after a change it cannot see, and keeps the change. -/
theorem exec_of_unseenChange (i : Instr) (h : exec i s = .next t) : exec i (g s) = .next (g t) := by
  cases i
  case addi rd rs1 imm =>
    cases h
    simp only [exec, execAddi, hg.readReg, hg.writeReg]
  case add rd rs1 rs2 =>
    cases h
    simp only [exec, execAdd, hg.readReg, hg.writeReg]
  case sb => exact store_of_unseenChange hg _ _ _ _ h
  case sh => exact store_of_unseenChange hg _ _ _ _ h
  case sw => exact store_of_unseenChange hg _ _ _ _ h
  case sd => exact store_of_unseenChange hg _ _ _ _ h
  all_goals exact load_of_unseenChange hg _ _ _ _ _ h

end

/-- Other CSR contents are a change that no instruction sees (R37). -/
theorem setCsrs_unseen (c : CsrCells) (s : State) : UnseenChange (fun s => { s with csrs := c }) s where
  readReg _ := rfl
  mem := rfl
  raise _ := rfl
  writeReg i v := by unfold State.writeReg; split <;> rfl
  setMem _ := rfl

/-- With x0 hardwired, another value in the cell X[0] is a change that no instruction sees (R10, R23). -/
theorem setX0Cell_unseen (v : Word) (s : State) (hx : s.x0Hardwired = true) :
    UnseenChange (fun s => { s with regs := s.regs.set 0 v }) s where
  readReg i := by
    by_cases hi : i = 0
    · rw [hi, readReg_zero_of_hardwired s hx]
      exact readReg_zero_of_hardwired _ hx
    · rw [readReg_eq_cell s i (fun h => hi h.2), readReg_eq_cell _ i (fun h => hi h.2)]
      exact Vector.getElem_set_ne (by decide) i.isLt (toNat_ne_zero_of_ne_x0 hi).symm
  mem := rfl
  raise _ := rfl
  writeReg i x := by
    by_cases hi : i = 0
    · rw [hi, writeReg_zero_of_hardwired s hx]
      exact writeReg_zero_of_hardwired { s with regs := s.regs.set 0 v } hx x
    · rw [writeReg_eq_setCell s i x (fun h => hi h.2), writeReg_eq_setCell _ i x (fun h => hi h.2)]
      simp only [Vector.set_comm _ _ (toNat_ne_zero_of_ne_x0 hi)]
  setMem _ := rfl

/-! ### What a step does -/

/-- A step of a completed or faulted engine changes nothing (R45, D21). -/
theorem step_of_final (s : State) (h : s.status ≠ .running) : step s = .next s := by
  rcases step_cases s with ⟨-, hstep⟩ | ⟨hr, -⟩
  · exact hstep
  · exact absurd hr h

/-- A step of a running engine runs the instruction at the PC (R107). -/
theorem step_of_decoded (s : State) (i : Instr) (rest : List Byte) (hr : s.status = .running)
    (hd : decodeBytes s.bytesAtPc = .ok (i, rest)) : step s = finishStep (exec i s) := by
  simp only [step, hr, hd]

/-- A step of a running engine at a word outside the table raises IllegalInstruction (R107, R204). -/
theorem step_of_illegal (s : State) (w : InstrWord) (hr : s.status = .running)
    (hd : decodeBytes s.bytesAtPc = .error (.illegalInstruction w)) :
    step s = .next (s.raise (.illegalInstruction w)) := by
  simp only [step, hr, hd]

/-- Every instruction answers a next state. -/
theorem exec_next (i : Instr) (s : State) : ∃ t, exec i s = .next t := by
  rcases exec_cases i s with ⟨f, h, -⟩ | ⟨rd, v, h⟩ | ⟨a, v, w, -, h⟩ <;> exact ⟨_, h⟩

/-- What executing without a fault leaves of a state: one register written, or bytes of the window stored. -/
inductive Executed (s : State) : State → Prop where
  | wrote (rd : RegIdx) (v : Word) : Executed s (s.writeReg rd v)
  | stored (a v : Word) (w : Width) (h : mapped a w.bytes) :
      Executed s { s with mem := storeBytes s.mem (a.toNat - Config.base) v w.bytes }

/-- Everything a step that answers has done (R107): nothing to a final state; else it raised a fault that is not the CSR
port's, or executed and advanced the PC. -/
theorem step_next_cases {s t : State} (h : step s = .next t) :
    (s.status ≠ .running ∧ t = s) ∨
    (s.status = .running ∧
      ((∃ f, (∀ a, f ≠ .csrRangeFault a) ∧ t = s.raise f) ∨ ∃ u, Executed s u ∧ t = u.advance)) := by
  rcases step_cases s with ⟨hr, hs⟩ | ⟨hr, ⟨i, rest, -, hs⟩ | ⟨w, -, hs⟩ | ⟨-, hs⟩⟩ <;> rw [hs] at h
  · cases h
    exact .inl ⟨hr, rfl⟩
  · refine .inr ⟨hr, ?_⟩
    rcases exec_cases i s with ⟨f, he, ea, w, hf⟩ | ⟨rd, v, he⟩ | ⟨a, v, w, hm, he⟩ <;>
      (rw [he] at h; cases h)
    · exact .inl ⟨f, by rcases hf with rfl | rfl <;> simp, rfl⟩
    · exact .inr ⟨_, .wrote rd v, by simp [State.afterExecute_eq, hr]⟩
    · exact .inr ⟨_, .stored a v w hm, by simp [State.afterExecute_eq, hr]⟩
  · cases h
    exact .inr ⟨hr, .inl ⟨_, by simp, rfl⟩⟩
  · cases h

namespace Executed
variable {s t : State} (h : Executed s t)
include h

theorem pc_eq : t.pc = s.pc := by cases h <;> simp
theorem csrs_eq : t.csrs = s.csrs := by cases h <;> simp
theorem imem_eq : t.imem = s.imem := by cases h <;> simp
theorem status_eq : t.status = s.status := by cases h <;> simp

theorem mem_wf (hm : s.mem.wf) : t.mem.wf := by
  cases h with
  | wrote rd v => simpa using hm
  | stored a v w hw =>
    obtain ⟨hlo, hhi⟩ := hw
    exact storeBytes_wf _ hm _ _ _ (by omega)

end Executed

/-! ### CSRs and the step -/

/-- No step changes a CSR (R37). -/
theorem step_csrs {s t : State} (h : step s = .next t) : t.csrs = s.csrs := by
  rcases step_next_cases h with ⟨-, rfl⟩ | ⟨-, ⟨f, -, rfl⟩ | ⟨u, hu, rfl⟩⟩
  · rfl
  · rfl
  · exact hu.csrs_eq

theorem afterExecute_setCsrs (s : State) (c : CsrCells) :
    State.afterExecute { s with csrs := c } = { s.afterExecute with csrs := c } := by
  rw [State.afterExecute_eq, State.afterExecute_eq]
  by_cases h : s.status = .running
  · rw [if_pos h, if_pos h]; rfl
  · rw [if_neg h, if_neg h]

/-- A step does the same with any CSR contents, and keeps them (R37, D18). -/
theorem step_setCsrs {s t : State} (c : CsrCells) (h : step s = .next t) :
    step { s with csrs := c } = .next { t with csrs := c } := by
  rcases step_cases s with ⟨hr, hs⟩ | ⟨hr, ⟨i, rest, hd, hs⟩ | ⟨w, hd, hs⟩ | ⟨-, hs⟩⟩ <;> rw [hs] at h
  · cases h
    exact step_of_final _ hr
  · obtain ⟨u, hu⟩ := exec_next i s
    rw [hu] at h
    cases h
    rw [step_of_decoded { s with csrs := c } i rest hr hd, exec_of_unseenChange (setCsrs_unseen c s) i hu]
    exact congrArg _ (afterExecute_setCsrs u c)
  · cases h
    exact step_of_illegal { s with csrs := c } w hr hd
  · cases h

/-- Settles O28: a step keeps the CSR cells, and other CSR contents are a change no instruction sees. -/
theorem csrsAreInert : Obligations.CsrsAreInert := fun _ _ c h => ⟨step_csrs h, step_setCsrs c h⟩

/-! ### The invariant -/

namespace State
variable {s : State}

theorem statusAgrees_of_running (h : s.status = .running) : s.statusAgrees ↔ s.pc.toNat < s.imem.length := by
  simp only [statusAgrees, h]

theorem statusAgrees_of_completed (h : s.status = .completed) :
    s.statusAgrees ↔ s.pc.toNat = s.imem.length := by
  simp only [statusAgrees, h]

theorem statusAgrees_of_faulted {f : Fault} (h : s.status = .faulted f) (hf : ∀ a, f ≠ .csrRangeFault a) :
    s.statusAgrees ↔ s.pc.toNat < s.imem.length := by
  cases f with
  | csrRangeFault a => exact absurd rfl (hf a)
  | _ => simp only [statusAgrees, h]

/-- STATUS agrees with the PC in two states that share them and the program's length. -/
theorem statusAgrees_congr {t : State} (hs : t.status = s.status) (hp : t.pc = s.pc) (hi : t.imem = s.imem) :
    t.statusAgrees ↔ s.statusAgrees := by
  simp only [statusAgrees, hs, hp, hi]

/-- In a running engine the next word boundary lies in the program or at its end (R28, R45). -/
theorem Inv.pc_add_four_le (hi : s.Inv) (hr : s.status = .running) : s.pc.toNat + 4 ≤ s.imem.length := by
  have hlt := (statusAgrees_of_running hr).1 hi.status
  have hw := hi.wholeWords
  have hp := hi.pcAligned
  omega

/-- In a running engine the PC advances without wrapping (R29). -/
theorem Inv.toNat_pc_add_four (hi : s.Inv) (hr : s.status = .running) : (s.pc + 4).toNat = s.pc.toNat + 4 := by
  have hle := hi.pc_add_four_le hr
  have hlt := hi.shortEnough
  have hlt4 : s.pc.toNat + (4 : Word).toNat < 2 ^ 64 := Nat.lt_of_le_of_lt hle hlt
  exact BitVec.toNat_add_of_lt hlt4

/-- A fault of a running engine, other than the CSR port's, keeps the invariant (R45, R206). -/
theorem Inv.raise (hi : s.Inv) (hr : s.status = .running) (f : Fault) (hf : ∀ a, f ≠ .csrRangeFault a) :
    (s.raise f).Inv :=
  { hi with status := (statusAgrees_of_faulted rfl hf).2 ((statusAgrees_of_running hr).1 hi.status) }

/-- Executing keeps the invariant (R20, R60). -/
theorem Inv.executed {t : State} (hi : s.Inv) (h : Executed s t) : t.Inv where
  wholeWords := h.imem_eq ▸ hi.wholeWords
  shortEnough := h.imem_eq ▸ hi.shortEnough
  pcAligned := h.pc_eq ▸ hi.pcAligned
  status := (statusAgrees_congr h.status_eq h.pc_eq h.imem_eq).2 hi.status
  memory := h.mem_wf hi.memory
  csrFile := h.csrs_eq ▸ hi.csrFile

/-- The status of a running engine after the PC has advanced, by the PC as a number (R107). -/
theorem Inv.advance_status_of_running (hi : s.Inv) (hr : s.status = .running) :
    s.advance.status = if s.pc.toNat + 4 < s.imem.length then .running else .completed := by
  rw [advance_status, hi.toNat_pc_add_four hr, hr]
  by_cases h : s.pc.toNat + 4 < s.imem.length
  · rw [if_pos h, if_neg (Nat.not_le_of_lt h)]
  · rw [if_neg h, if_pos (Nat.le_of_not_lt h)]

/-- Advancing the PC of a running engine keeps the invariant (R28, R29, R45). -/
theorem Inv.advance (hi : s.Inv) (hr : s.status = .running) : s.advance.Inv := by
  have hpc : s.advance.pc.toNat = s.pc.toNat + 4 := hi.toNat_pc_add_four hr
  have hst := hi.advance_status_of_running hr
  refine { hi with pcAligned := by rw [hpc, Nat.add_mod_right]; exact hi.pcAligned, status := ?_ }
  by_cases h : s.pc.toNat + 4 < s.imem.length
  · rw [if_pos h] at hst
    exact (statusAgrees_of_running hst).2 (hpc ▸ h)
  · rw [if_neg h] at hst
    exact (statusAgrees_of_completed hst).2 (hpc.trans (Nat.le_antisymm (hi.pc_add_four_le hr) (Nat.le_of_not_lt h)))

end State

/-- Settles O42, by the cases of a step. -/
theorem stepKeepsInv : Obligations.StepKeepsInv := by
  intro s t hi h
  rcases step_next_cases h with ⟨-, rfl⟩ | ⟨hr, ⟨f, hf, rfl⟩ | ⟨u, hu, rfl⟩⟩
  · exact hi
  · exact hi.raise hr f hf
  · exact (hi.executed hu).advance (hu.status_eq.trans hr)

/-- Settles O41: the invariant leaves room in the program for the advance of the PC. -/
theorem stepAdvancesByFour : Obligations.StepAdvancesByFour := by
  intro s t hi hr h
  rcases step_next_cases h with ⟨hn, -⟩ | ⟨-, ⟨f, -, rfl⟩ | ⟨u, hu, rfl⟩⟩
  · exact absurd hr hn
  · exact .inr ⟨f, rfl⟩
  · have hur : u.status = .running := hu.status_eq.trans hr
    have hpc : u.advance.pc.toNat = u.pc.toNat + 4 := (hi.executed hu).toNat_pc_add_four hur
    rw [(hi.executed hu).advance_status_of_running hur, hpc, hu.pc_eq, hu.imem_eq]
    exact .inl ⟨rfl, rfl⟩

/-- Settles O31, by the one branch of construction that answers (R240, R241). -/
theorem constructedMeetsInv : Obligations.ConstructedMeetsInv := by
  intro prog initX initCsr initMem hw s h
  unfold construct at h
  split at h
  next hlen =>
    cases h
    refine ⟨hlen.1, hlen.2, rfl, ?_, constructMem_wf initMem, constructCsrs_wf initCsr⟩
    by_cases h0 : prog.length = 0
    · exact (State.statusAgrees_of_completed (if_pos h0)).2 h0.symm
    · exact (State.statusAgrees_of_running (if_neg h0)).2 (Nat.pos_of_ne_zero h0)
  next => cases h

/-- The invariant does not depend on which CSR contents in canonical form the engine has. -/
theorem State.Inv.setCsrs {s : State} (hi : s.Inv) (c : CsrCells) (hc : c.wf) : State.Inv { s with csrs := c } :=
  { hi with csrFile := hc }

/-- Settles O43: a write sets one cell other than 0x104, or nothing. -/
theorem csrWriteKeepsInv : Obligations.CsrWriteKeepsInv := by
  intro s a v hi
  unfold afterCsrWrite
  rcases csrWrite_cases s a v with ⟨-, h⟩ | ⟨-, x, h⟩ | ⟨ha, hs, h⟩ <;> rw [h]
  · exact hi
  · exact hi.setCsrs _ (writeCell_csrs_wf _ hi.csrFile _ x (by decide) (by decide))
  · exact hi.setCsrs _ (writeCell_csrs_wf _ hi.csrFile a v ha hs)

/-- Settles O36, by induction on the number of steps. -/
theorem finalStatesStayFinal : Obligations.FinalStatesStayFinal := by
  intro s k hs
  induction k with
  | zero => rfl
  | succ k ih => rw [run_next s s k (step_of_final s hs), ih]

/-! ### Register x0 over instructions -/

/-- An instruction changes neither the parameter nor, where x0 is hardwired, the cell X[0] (R23). -/
theorem exec_keeps_x0 (s t : State) (i : Instr) (hx : s.x0Hardwired = true) (h : exec i s = .next t) :
    t.x0Hardwired = true ∧ t.regs[0] = s.regs[0] := by
  rcases exec_cases i s with ⟨f, he, -⟩ | ⟨rd, v, he⟩ | ⟨a, v, w, -, he⟩ <;>
    (rw [he] at h; cases h)
  · exact ⟨hx, rfl⟩
  · exact ⟨by simpa using hx, writeReg_x0Cell_of_hardwired s hx rd v⟩
  · exact ⟨hx, rfl⟩

/-- Settles O34, by the two values of X0_HARDWIRED. -/
theorem x0FollowsParameter : Obligations.X0FollowsParameter := by
  intro s
  refine ⟨fun k => rfl, fun k hk => readReg_eq_cell s k (fun h => hk h.2), writeReg_eq_setRegs s,
    fun hx => ⟨readReg_zero_of_hardwired s hx, readReg_writeReg_of_hardwired s hx, fun i t h => ?_⟩,
    fun hx => ⟨readReg_eq_cell s 0 (by simp [hx]), readReg_writeReg_of_plain s hx, fun rs1 imm t h => ?_,
      fun rs1 rs2 t h => ?_⟩⟩
  · obtain ⟨ht, hcell⟩ := exec_keeps_x0 s t i hx h
    exact ⟨readReg_zero_of_hardwired t ht, hcell, fun v => exec_of_unseenChange (setX0Cell_unseen v s hx) i h⟩
  · cases h
    exact (readReg_writeReg_of_plain s hx 0 0 _).trans (if_pos rfl)
  · cases h
    exact (readReg_writeReg_of_plain s hx 0 0 _).trans (if_pos rfl)

end Sys2Proof.Machine
end

section
/-! SUPPORT and PROOFS for the memory's obligations (20_memory.md): one rule for each thing a Bus access can do, the
bytes of a loaded value, and a load from the bytes just stored. -/

namespace Sys2Proof.Machine

theorem Width.bytes_le (w : Width) : w.bytes ≤ 8 := by cases w <;> decide

/-! ### The Bus, by where the access lies -/

section
variable {s : State} {a : Word} {w : Width}

theorem memRead_of_lt_base (h : a.toNat < Config.base) : memRead s a w = .error (.unmappedAddress a w) := if_pos h

theorem memWrite_of_lt_base {v : Word} (h : a.toNat < Config.base) :
    memWrite s a w v = .error (.unmappedAddress a w) := if_pos h

theorem memRead_of_mapped (h : mapped a w.bytes) :
    memRead s a w = .ok (loadBytes s.mem (a.toNat - Config.base) w.bytes) := by
  rcases memRead_cases s a w with ⟨hlt, -⟩ | ⟨-, hgt, -⟩ | ⟨-, hr⟩
  · exact absurd h.1 (Nat.not_le_of_lt hlt)
  · exact absurd h.2 (Nat.not_le_of_lt hgt)
  · exact hr

theorem memWrite_of_mapped {v : Word} (h : mapped a w.bytes) :
    memWrite s a w v = .ok { s with mem := storeBytes s.mem (a.toNat - Config.base) v w.bytes } := by
  rcases memWrite_cases s a w v with ⟨hlt, -⟩ | ⟨-, hgt, -⟩ | ⟨-, hr⟩
  · exact absurd h.1 (Nat.not_le_of_lt hlt)
  · exact absurd h.2 (Nat.not_le_of_lt hgt)
  · exact hr

theorem memRead_of_past_end (hlo : Config.base ≤ a.toNat) (hhi : Config.base + Config.cap < a.toNat + w.bytes) :
    memRead s a w = .error (.memoryFault a w) := by
  rcases memRead_cases s a w with ⟨hlt, -⟩ | ⟨-, -, hr⟩ | ⟨hm, -⟩
  · exact absurd hlo (Nat.not_le_of_lt hlt)
  · exact hr
  · exact absurd hm.2 (Nat.not_le_of_lt hhi)

theorem memWrite_of_past_end {v : Word} (hlo : Config.base ≤ a.toNat)
    (hhi : Config.base + Config.cap < a.toNat + w.bytes) : memWrite s a w v = .error (.memoryFault a w) := by
  rcases memWrite_cases s a w v with ⟨hlt, -⟩ | ⟨-, -, hr⟩ | ⟨hm, -⟩
  · exact absurd hlo (Nat.not_le_of_lt hlt)
  · exact hr
  · exact absurd hm.2 (Nat.not_le_of_lt hhi)

/-- A store that succeeds lies in the window and has written its bytes, and nothing else. -/
theorem memWrite_ok {s' : State} {v : Word} (h : memWrite s a w v = .ok s') :
    mapped a w.bytes ∧ s' = { s with mem := storeBytes s.mem (a.toNat - Config.base) v w.bytes } := by
  rcases memWrite_cases s a w v with ⟨-, hr⟩ | ⟨-, -, hr⟩ | ⟨hm, hr⟩ <;> rw [hr] at h <;> cases h
  exact ⟨hm, rfl⟩

end

/-- Addresses of the window do not wrap (R66, R67). -/
theorem toNat_add_of_mapped {a : Word} {n k : Nat} (h : mapped a n) (hk : k ≤ n) :
    (a + BitVec.ofNat 64 k).toNat = a.toNat + k := by
  have htop : Config.base + Config.cap < 2 ^ 64 := by decide
  obtain ⟨-, hend⟩ := h
  rw [BitVec.toNat_add, BitVec.toNat_ofNat]
  omega

/-- An access inside a mapped one is mapped. -/
theorem mapped_within {a : Word} {n k n' : Nat} (h : mapped a n) (hk : k + n' ≤ n) :
    mapped (a + BitVec.ofNat 64 k) n' := by
  obtain ⟨hlo, hhi⟩ := h
  rw [mapped, toNat_add_of_mapped ⟨hlo, hhi⟩ (by omega)]
  omega

/-! ### The bytes of a loaded value -/

/-- Byte `j` of a loaded value is the Memory byte `j` places above its offset (R61). -/
theorem extractLsb'_loadBytes (m : Memory) (o n j : Nat) (hn : n ≤ 8) (hj : j < n) :
    (loadBytes m o n).extractLsb' (8 * j) 8 = readCell m (o + j) := by
  ext i hi
  have hbit : (8 * j + i) / 8 = j ∧ (8 * j + i) % 8 = i ∧ 8 * j + i < 8 * n := by omega
  obtain ⟨hdiv, hmod, hlt⟩ := hbit
  rw [BitVec.getElem_extractLsb', getLsbD_loadBytes _ _ _ _ (by omega), hdiv, hmod, decide_eq_true hlt,
    Bool.true_and, BitVec.getLsbD_eq_getElem hi]

/-- A loaded value is zero above its bytes (R61). -/
theorem getLsbD_loadBytes_above (m : Memory) (o n j : Nat) (hj : 8 * n ≤ j) :
    (loadBytes m o n).getLsbD j = false := by
  by_cases h64 : j < 64
  · rw [getLsbD_loadBytes _ _ _ _ h64, decide_eq_false (Nat.not_lt_of_le hj), Bool.false_and]
  · exact BitVec.getLsbD_of_ge _ _ (Nat.le_of_not_lt h64)

/-- Bytes loaded from inside the bytes just stored are those bytes of the stored value (R69). -/
theorem loadBytes_storeBytes (m : Memory) (hm : canonical m) (o : Nat) (v : Word) (n k n' : Nat) (hk : k + n' ≤ n) :
    loadBytes (storeBytes m o v n) (o + k) n' = (v.extractLsb' (8 * k) (8 * n')).setWidth 64 := by
  ext j hj
  rw [← BitVec.getLsbD_eq_getElem, getLsbD_loadBytes _ _ _ _ hj, BitVec.getElem_setWidth, BitVec.getLsbD_extractLsb']
  by_cases hlt : j < 8 * n'
  · have hin : o ≤ o + k + j / 8 ∧ o + k + j / 8 < o + n := by omega
    have hbit : 8 * (o + k + j / 8 - o) + j % 8 = 8 * k + j := by omega
    rw [readCell_storeBytes _ hm, if_pos hin, BitVec.getLsbD_extractLsb', hbit,
      decide_eq_true (Nat.mod_lt j (by decide)), Bool.true_and]
  · rw [decide_eq_false hlt, Bool.false_and, Bool.false_and]

/-! ### The obligations -/

/-- Settles O23, by the three ranges of the address. -/
theorem addressMap : Obligations.AddressMap := by
  intro s a w v hm
  refine ⟨fun hlt => ⟨memRead_of_lt_base hlt, memWrite_of_lt_base hlt⟩, fun hlo hhi => ?_,
    fun hlo hhi => ⟨memRead_of_past_end hlo hhi, memWrite_of_past_end hlo hhi⟩⟩
  have hw : mapped a w.bytes := ⟨hlo, hhi⟩
  refine ⟨⟨_, memRead_of_mapped hw, fun j hj => extractLsb'_loadBytes _ _ _ j w.bytes_le hj,
    fun j hj => getLsbD_loadBytes_above _ _ _ j hj⟩, _, memWrite_of_mapped hw, fun j hj => ?_⟩
  calc readCell (storeBytes s.mem (a.toNat - Config.base) v w.bytes) (a.toNat - Config.base + j)
      = v.extractLsb' (8 * (a.toNat - Config.base + j - (a.toNat - Config.base))) 8 := by
        rw [readCell_storeBytes _ hm.1, if_pos (by omega)]
    _ = v.extractLsb' (8 * j) 8 := by rw [Nat.add_sub_cancel_left]

/-- Settles O24: the store's bytes are in the window, so the load's are, at `k` places above the store's offset. -/
theorem loadWithinStore : Obligations.LoadWithinStore := by
  intro s s' a v w w' k hm hs hk
  obtain ⟨hw, rfl⟩ := memWrite_ok hs
  have hoff : (a + BitVec.ofNat 64 k).toNat - Config.base = a.toNat - Config.base + k := by
    rw [toNat_add_of_mapped hw (Nat.le_of_add_right_le hk), Nat.sub_add_comm hw.1]
  rw [memRead_of_mapped (mapped_within hw hk), hoff, loadBytes_storeBytes _ hm.1 _ _ _ _ _ hk]

end Sys2Proof.Machine
end

section
/-! SUPPORT and PROOFS for the encoding's obligations (30_encoding.md): the words that fields give back, the 12 bits of a
sign-extended immediate, and what fetch, the step and the pseudo-instructions do. -/

namespace Sys2Proof

/-! ### Sign-extended immediates -/

/-- Sign extension keeps the low 12 bits (R96). -/
theorem extractLsb'_sext12 (i : BitVec 12) (start len : Nat) (h : start + len ≤ 12) :
    (sext12 i).extractLsb' start len = i.extractLsb' start len := by
  ext j hj
  have h12 : start + j < 12 := by omega
  have h64 : start + j < 64 := by omega
  rw [BitVec.getElem_extractLsb', BitVec.getElem_extractLsb', sext12, BitVec.getLsbD_signExtend, if_pos h12,
    decide_eq_true h64, Bool.true_and]

/-- The signed value of an extended immediate is that of its 12 bits (R96). -/
theorem toInt_sext12 (i : BitVec 12) : (sext12 i).toInt = i.toInt := BitVec.toInt_signExtend_of_le (by decide)

/-- Settles O6: bit 11 is the sign of the 12 bits. -/
theorem signExtendTwelveBits : Obligations.SignExtendTwelveBits := by
  refine ⟨fun i => ?_, by decide, by decide, by decide⟩
  rw [toInt_sext12, BitVec.toInt_eq_msb_cond, BitVec.msb_eq_getLsbD_last]
  rfl

theorem immInRange_immI (w : InstrWord) : immInRange (immI w) = true := immInRange_sext12 _

theorem immInRange_immS (w : InstrWord) : immInRange (immS w) = true := immInRange_sext12 _

/-! ### Words from their fields -/

/-- The six fields of a word, each next to the one below it, are the word (R92). -/
theorem append_fields (w : InstrWord) :
    funct7Field w ++ rs2Field w ++ rs1Field w ++ funct3Field w ++ rdField w ++ opcodeField w = w := by
  simp (disch := decide) only [funct7Field, rs2Field, rs1Field, funct3Field, rdField, opcodeField,
    BitVec.extractLsb'_append_extractLsb'_eq_extractLsb']
  exact BitVec.extractLsb'_eq_self

section
variable {w : InstrWord} {op : BitVec 7} {f3 : BitVec 3}

/-- A word is the I-type word of its fields (R93). -/
theorem encodeI_of_fields (ho : opcodeField w = op) (hf : funct3Field w = f3) :
    encodeI op f3 (rdField w) (rs1Field w) (immI w) = w := by
  have himm : (immI w).extractLsb' 0 12 = funct7Field w ++ rs2Field w := by
    rw [immI, extractLsb'_sext12 _ 0 12 (by decide), BitVec.extractLsb'_eq_self]
    exact (BitVec.extractLsb'_append_extractLsb'_eq_extractLsb' (start₁ := 20) (len₁ := 5) rfl).symm
  rw [encodeI, himm, ← ho, ← hf]
  exact append_fields w

/-- A word is the S-type word of its fields (R93, R95). -/
theorem encodeS_of_fields (ho : opcodeField w = op) (hf : funct3Field w = f3) :
    encodeS op f3 (rs1Field w) (rs2Field w) (immS w) = w := by
  have hhigh : (immS w).extractLsb' 5 7 = funct7Field w := by
    rw [immS, extractLsb'_sext12 _ 5 7 (by decide)]
    exact BitVec.extractLsb'_append_eq_left
  have hlow : (immS w).extractLsb' 0 5 = rdField w := by
    rw [immS, extractLsb'_sext12 _ 0 5 (by decide)]
    exact BitVec.extractLsb'_append_eq_right
  rw [encodeS, hhigh, hlow, ← ho, ← hf]
  exact append_fields w

/-- A word is the R-type word of its fields (R93). -/
theorem encodeR_of_fields {f7 : BitVec 7} (ho : opcodeField w = op) (hf3 : funct3Field w = f3)
    (hf7 : funct7Field w = f7) : encodeR op f3 f7 (rdField w) (rs1Field w) (rs2Field w) = w := by
  rw [encodeR, ← ho, ← hf3, ← hf7]
  exact append_fields w

/-! ### The families of the dispatch table -/

variable {i : Instr}

theorem encode_of_decodeLoad (ho : opcodeField w = 0x03) (h : decodeLoad w = some i) :
    i.WellFormed ∧ encode i = w := by
  unfold decodeLoad at h
  split_ifs at h <;> cases h <;> exact ⟨immInRange_immI w, encodeI_of_fields ho ‹_›⟩

theorem encode_of_decodeOpImm (ho : opcodeField w = 0x13) (h : decodeOpImm w = some i) :
    i.WellFormed ∧ encode i = w := by
  unfold decodeOpImm at h
  split_ifs at h with hf
  cases h
  exact ⟨immInRange_immI w, encodeI_of_fields ho hf⟩

theorem encode_of_decodeStore (ho : opcodeField w = 0x23) (h : decodeStore w = some i) :
    i.WellFormed ∧ encode i = w := by
  unfold decodeStore at h
  split_ifs at h <;> cases h <;> exact ⟨immInRange_immS w, encodeS_of_fields ho ‹_›⟩

theorem encode_of_decodeOp (ho : opcodeField w = 0x33) (h : decodeOp w = some i) :
    i.WellFormed ∧ encode i = w := by
  unfold decodeOp at h
  split_ifs at h with hf
  obtain ⟨hf3, hf7⟩ := hf
  cases h
  exact ⟨rfl, encodeR_of_fields ho hf3 hf7⟩

/-- A word decodes exactly to the row of the dispatch table it selects (R99). -/
theorem decode_eq_ok_iff : decode w = .ok i ↔ select w = some i := by
  unfold decode
  cases select w <;> simp

end

/-- Settles O3, by the opcode, which fixes the family and so the format. -/
theorem encodeOfDecode : Obligations.EncodeOfDecode := by
  intro w i h
  rw [decode_eq_ok_iff, select] at h
  split_ifs at h with hload hopImm hstore hop
  · exact encode_of_decodeLoad hload h
  · exact encode_of_decodeOpImm hopImm h
  · exact encode_of_decodeStore hstore h
  · exact encode_of_decodeOp hop h

end Sys2Proof

namespace Sys2Proof.Machine

/-! ### Fetch and the step -/

/-- Only fewer than four bytes give no word (R91). -/
theorem length_lt_four_of_truncated {bs : List Byte} (h : decodeBytes bs = .error .truncated) : bs.length < 4 := by
  match bs with
  | [] | [_] | [_, _] | [_, _, _] => simp
  | b0 :: b1 :: b2 :: b3 :: rest =>
    exfalso
    simp only [decodeBytes, decode] at h
    cases hs : select (wordOfBytes b0 b1 b2 b3) <;> simp [hs] at h

/-- In a running engine four bytes stand at the PC (R28, R45, R91). -/
theorem State.Inv.decodeBytes_ne_truncated {s : State} (hi : s.Inv) (hr : s.status = .running) :
    decodeBytes s.bytesAtPc ≠ .error .truncated := by
  intro h
  have hlt := length_lt_four_of_truncated h
  have hle := hi.pc_add_four_le hr
  rw [State.bytesAtPc, List.length_drop] at hlt
  omega

/-- Settles O40: the invariant excludes the one case of a step that answers nothing. -/
theorem stepAlwaysAnswers : Obligations.StepAlwaysAnswers := by
  intro s hi
  rcases step_cases s with ⟨-, hs⟩ | ⟨hr, ⟨i, rest, -, hs⟩ | ⟨w, -, hs⟩ | ⟨hd, -⟩⟩
  · exact ⟨_, hs⟩
  · obtain ⟨t, ht⟩ := exec_next i s
    exact ⟨t.afterExecute, by rw [hs, ht]; rfl⟩
  · exact ⟨_, hs⟩
  · exact absurd hd (hi.decodeBytes_ne_truncated hr)

/-- What an instruction that answers has done: raised a fault, or executed. -/
theorem exec_next_cases {i : Instr} {s t : State} (h : exec i s = .next t) :
    (∃ f, t = s.raise f) ∨ Executed s t := by
  rcases exec_cases i s with ⟨f, he, -⟩ | ⟨rd, v, he⟩ | ⟨a, v, w, hm, he⟩ <;> (rw [he] at h; cases h)
  · exact .inl ⟨f, rfl⟩
  · exact .inr (.wrote rd v)
  · exact .inr (.stored a v w hm)

/-- An instruction that leaves STATUS Running has executed. -/
theorem executed_of_running {i : Instr} {s t : State} (h : exec i s = .next t) (hr : t.status = .running) :
    Executed s t := by
  rcases exec_next_cases h with ⟨f, rfl⟩ | hx
  · cases hr
  · exact hx

/-- A running engine with the bytes of a word at its PC runs the instruction the word decodes to (R91, R107). -/
theorem step_of_fetched {s t : State} {i : Instr} {b0 b1 b2 b3 : Byte} {rest : List Byte} (hr : s.status = .running)
    (hb : s.imem.drop s.pc.toNat = b0 :: b1 :: b2 :: b3 :: rest) (hd : decode (b3 ++ b2 ++ b1 ++ b0) = .ok i)
    (he : exec i s = .next t) : step s = .next t.afterExecute := by
  have hfetch : decodeBytes s.bytesAtPc = .ok (i, rest) := by
    rw [State.bytesAtPc, hb, decodeBytes, wordOfBytes, hd]
  rw [step_of_decoded s i rest hr hfetch, he, finishStep]

/-- Settles O35: executing keeps the PC and the program, so the advance after it is by the old ones. -/
theorem stepRunsDecodedInstruction : Obligations.StepRunsDecodedInstruction := by
  intro s t i b0 b1 b2 b3 rest hr hb hd he
  rw [step_of_fetched hr hb hd he, State.afterExecute_eq]
  refine ⟨fun ht => ?_, fun ht => by rw [if_neg ht]⟩
  have hx := executed_of_running he ht
  rw [if_pos ht, ← hx.pc_eq, ← hx.imem_eq, ← ht]
  rfl

/-! ### Assembler syntax -/

/-- A number in range assembles to its 64-bit value (R104). -/
theorem asmNumber_of_mem {n : Int} (h : -2048 ≤ n ∧ n ≤ 2047) : asmNumber n = some (BitVec.ofInt 64 n) := if_pos h

/-- Whatever a number assembles to is its 64-bit value (R104). -/
theorem eq_ofInt_of_asmNumber {n : Int} {w : Word} (h : asmNumber n = some w) : w = BitVec.ofInt 64 n := by
  unfold asmNumber at h
  split_ifs at h
  cases h
  rfl

/-- A pattern in range assembles to its sign extension (R96, R104). -/
theorem asmPattern_of_le {p : Nat} (h : p ≤ 0xFFF) : asmPattern p = some (sext12 (BitVec.ofNat 12 p)) := if_pos h

/-- The number a 12-bit pattern means (R96, R104). -/
theorem toInt_sext12_ofNat {p : Nat} (h : p ≤ 0xFFF) :
    (sext12 (BitVec.ofNat 12 p)).toInt = if p < 0x800 then (p : Int) else (p : Int) - 4096 := by
  have hp : (BitVec.ofNat 12 p).toNat = p := Nat.mod_eq_of_lt (Nat.lt_succ_of_le h)
  rw [toInt_sext12, BitVec.toInt_eq_toNat_cond, hp]
  split_ifs <;> omega

/-- Settles O46, by the two ranges of R104. -/
theorem assemblerImmediates : Obligations.AssemblerImmediates := by
  refine ⟨fun n hlo hhi => ⟨_, asmNumber_of_mem ⟨hlo, hhi⟩, ?_⟩, fun n hn => if_neg (by omega),
    fun p hp => ⟨_, asmPattern_of_le hp, toInt_sext12_ofNat hp⟩, fun p hp => if_neg (Nat.not_le_of_lt hp)⟩
  exact BitVec.toInt_ofInt_eq_self (by decide) (by omega) (by omega)

/-- Writing a register with what it reads changes nothing, a hardwired x0 included (R10). -/
theorem writeReg_readReg (s : State) (k : RegIdx) : s.writeReg k (s.readReg k) = s := by
  by_cases h : s.x0Hardwired = true ∧ k = 0
  · rw [h.2, writeReg_zero_of_hardwired s h.1]
  · rw [writeReg_eq_setCell s k _ h, readReg_eq_cell s k h, Vector.set_getElem_self]

/-- ADDI writes the sum of its source and immediate (R150). -/
theorem exec_addi (rd rs1 : RegIdx) (imm : Word) (s : State) :
    exec (.addi rd rs1 imm) s = .next (s.writeReg rd (s.readReg rs1 + imm)) := rfl

/-- `mv` copies a register (R106). -/
theorem exec_asmMv (rd rs : RegIdx) (s : State) : exec (asmMv rd rs) s = .next (s.writeReg rd (s.readReg rs)) := by
  rw [asmMv, exec_addi, add_zero]

/-- What `li` assembles to (R106). -/
theorem eq_addi_of_asmLi {rd : RegIdx} {n : Int} {i : Instr} (h : asmLi rd n = some i) :
    i = .addi rd 0 (BitVec.ofInt 64 n) := by
  obtain ⟨imm, himm, rfl⟩ := Option.map_eq_some_iff.1 h
  rw [eq_ofInt_of_asmNumber himm]

/-- Settles O47: all three are ADDI, and `nop` is `mv x0,x0`. -/
theorem pseudoInstructions : Obligations.PseudoInstructions := by
  refine fun s => ⟨?_, fun rd rs => exec_asmMv rd rs s, fun rd n i hi h0 => ?_⟩
  · have hnop : exec asmNop s = .next (s.writeReg 0 (s.readReg 0)) := exec_asmMv 0 0 s
    rw [hnop, writeReg_readReg]
  · rw [eq_addi_of_asmLi hi, exec_addi, h0, zero_add]

end Sys2Proof.Machine
end

section
/-! SUPPORT and PROOFS for the LOAD family's obligations (40_load.md): a load by where its access lies, the bytes a load
puts together, the words of the LOAD rows, and the one rule behind all seven loads. -/

namespace Sys2Proof

/-! ### The words of the LOAD rows -/

/-- A word with the LOAD opcode decodes by its funct3 alone (R98). -/
theorem decode_of_decodeLoad {w : InstrWord} {i : Instr} (ho : opcodeField w = 0x03) (h : decodeLoad w = some i) :
    decode w = .ok i := by
  rw [decode_eq_ok_iff, select, if_pos ho, h]

/-- Settles O1: each word has the fields of its instruction. -/
theorem specWordsDecode : Obligations.SpecWordsDecode := ⟨rfl, rfl, rfl, rfl, rfl⟩

end Sys2Proof

namespace Sys2Proof.Machine

/-! ### A load, by where its access lies -/

section
variable {w : Width} {ext : Word → Word} {rd rs1 : RegIdx} {imm : Word} {s : State}

/-- A load whose access raises a fault raises it and writes nothing (R12, R130). -/
theorem load_of_memRead_error {f : Fault} (h : memRead s (s.readReg rs1 + imm) w = .error f) :
    load w ext rd rs1 imm s = .next (s.raise f) := by
  rw [load, effectiveAddress, add64, h]

/-- A load of bytes of the window writes rd with their extended value (R130). -/
theorem load_of_mapped (h : mapped (s.readReg rs1 + imm) w.bytes) :
    load w ext rd rs1 imm s = .next (s.writeReg rd
      (ext (loadBytes s.mem ((s.readReg rs1 + imm).toNat - Config.base) w.bytes))) := by
  rw [load, effectiveAddress, add64, memRead_of_mapped h]

end

/-! ### The bytes a load puts together -/

/-- Putting the lowest byte under those loaded from the next offset on (R61). -/
theorem loadBytes_succ_eq_append {m : Memory} {o n k : Nat} {x : BitVec k}
    (hx : loadBytes m (o + 1) n = x.setWidth 64) :
    loadBytes m o (n + 1) = (x ++ readCell m o).setWidth 64 := by
  ext j hj
  rw [← BitVec.getLsbD_eq_getElem, getLsbD_loadBytes _ _ _ _ hj, BitVec.getElem_setWidth, BitVec.getLsbD_append]
  by_cases hlow : j < 8
  · have hbyte : j / 8 = 0 ∧ j % 8 = j ∧ j < 8 * (n + 1) := by omega
    obtain ⟨hdiv, hmod, hlt⟩ := hbyte
    rw [if_pos hlow, hdiv, hmod, decide_eq_true hlt, Bool.true_and, Nat.add_zero]
  · have hbits := congrArg (·.getLsbD (j - 8)) hx
    have h64 : j - 8 < 64 := by omega
    have hbyte : o + 1 + (j - 8) / 8 = o + j / 8 ∧ (j - 8) % 8 = j % 8 ∧ (j - 8 < 8 * n ↔ j < 8 * (n + 1)) := by
      omega
    obtain ⟨hoff, hmod, hlt⟩ := hbyte
    simp only [getLsbD_loadBytes _ _ _ _ h64, BitVec.getLsbD_setWidth, hoff, hmod, hlt, h64, decide_true,
      Bool.true_and] at hbits
    rw [if_neg hlow, hbits]

/-- One loaded byte is the byte at the offset (R61). -/
theorem loadBytes_one (m : Memory) (o : Nat) : loadBytes m o 1 = (readCell m o).setWidth 64 := by
  simp [loadBytes]

section
variable {s : State} {a : Word}

/-- Putting the byte at an address of the window under those loaded from the next one on (R61, R67). -/
theorem loadBytes_succ_of_mapped {N n k l : Nat} {x : BitVec l} (h : mapped a N) (hk : k < N)
    (hx : loadBytes s.mem (a.toNat - Config.base + (k + 1)) n = x.setWidth 64) :
    loadBytes s.mem (a.toNat - Config.base + k) (n + 1) = (x ++ byteAt s (a + BitVec.ofNat 64 k)).setWidth 64 := by
  rw [byteAt_add s a N k h hk]
  exact loadBytes_succ_eq_append (Nat.add_assoc _ _ _ ▸ hx)

/-- The byte at the last address of an access (R61, R67). -/
theorem loadBytes_last_of_mapped {k : Nat} (h : mapped a (k + 1)) :
    loadBytes s.mem (a.toNat - Config.base + k) 1 = (byteAt s (a + BitVec.ofNat 64 k)).setWidth 64 := by
  rw [byteAt_add s a (k + 1) k h (Nat.lt_succ_self k)]
  exact loadBytes_one _ _

theorem loadBytes_byte : loadBytes s.mem (a.toNat - Config.base) 1 = (byteAt s a).setWidth 64 := loadBytes_one _ _

theorem loadBytes_half (h : mapped a 2) :
    loadBytes s.mem (a.toNat - Config.base) 2 = (byteAt s (a + 1) ++ byteAt s a).setWidth 64 :=
  loadBytes_succ_eq_append (loadBytes_last_of_mapped h)

theorem loadBytes_word (h : mapped a 4) :
    loadBytes s.mem (a.toNat - Config.base) 4 =
      (byteAt s (a + 3) ++ byteAt s (a + 2) ++ byteAt s (a + 1) ++ byteAt s a).setWidth 64 :=
  loadBytes_succ_eq_append <| loadBytes_succ_of_mapped h (k := 1) (by decide) <|
    loadBytes_succ_of_mapped h (k := 2) (by decide) <| loadBytes_last_of_mapped h

theorem loadBytes_dword (h : mapped a 8) :
    loadBytes s.mem (a.toNat - Config.base) 8 =
      (byteAt s (a + 7) ++ byteAt s (a + 6) ++ byteAt s (a + 5) ++ byteAt s (a + 4) ++
        byteAt s (a + 3) ++ byteAt s (a + 2) ++ byteAt s (a + 1) ++ byteAt s a).setWidth 64 :=
  loadBytes_succ_eq_append <| loadBytes_succ_of_mapped h (k := 1) (by decide) <|
    loadBytes_succ_of_mapped h (k := 2) (by decide) <| loadBytes_succ_of_mapped h (k := 3) (by decide) <|
    loadBytes_succ_of_mapped h (k := 4) (by decide) <| loadBytes_succ_of_mapped h (k := 5) (by decide) <|
    loadBytes_succ_of_mapped h (k := 6) (by decide) <| loadBytes_last_of_mapped h

end

/-! ### The extension of a loaded value -/

/-- Sign extension of a value held in the low `n` bits (R9). -/
theorem sext_of_eq_setWidth {n : Nat} {v : Word} {x : BitVec n} (hn : n ≤ 64) (h : v = x.setWidth 64) :
    sext n v = x.signExtend 64 := by
  rw [sext, h, BitVec.setWidth_setWidth_of_le x hn, BitVec.setWidth_eq]

/-- Zero extension of a value held in the low `n` bits (R9). -/
theorem zext_of_eq_setWidth {n : Nat} {v : Word} {x : BitVec n} (hn : n ≤ 64) (h : v = x.setWidth 64) :
    zext n v = x.setWidth 64 := by
  rw [zext, h, BitVec.setWidth_setWidth_of_le x hn, BitVec.setWidth_eq]

/-! ### The rule of the LOAD family -/

/-- An instruction that is written, decoded and executed as the load of width `w` meets the LOAD family's rule, with the
value it makes of the bytes at its address. -/
theorem loadRule_of_load {name : String} {mk : RegIdx → RegIdx → Word → Instr} {matchValue : InstrWord}
    {funct3 : BitVec 3} {w : Width} {ext : Word → Word} {value : State → Word → Word}
    (htext : ∀ rd rs1 imm, asmText (mk rd rs1 imm) = asmMemory name rd rs1 imm)
    (hmatch : opcodeField matchValue = 0x03 ∧ funct3Field matchValue = funct3)
    (hdecode : ∀ iw, funct3Field iw = funct3 → decodeLoad iw = some (mk (rdField iw) (rs1Field iw) (immI iw)))
    (hexec : ∀ rd rs1 imm, exec (mk rd rs1 imm) = load w ext rd rs1 imm)
    (hvalue : ∀ s a, mapped a w.bytes → ext (loadBytes s.mem (a.toNat - Config.base) w.bytes) = value s a) :
    LoadRule name mk matchValue w w.bytes value := by
  refine ⟨htext, fun iw hiw => ?_, fun rd rs1 imm s hm => ?_, fun rd rs1 imm s hlt => ?_,
    fun rd rs1 imm s hlo hhi => ?_⟩
  · obtain ⟨hop, hf⟩ := selectors_of_mask iw matchValue hiw
    exact decode_of_decodeLoad (hop.trans hmatch.1) (hdecode iw (hf.trans hmatch.2))
  · rw [hexec, load_of_mapped hm, hvalue s _ hm]
  · rw [hexec, load_of_memRead_error (memRead_of_lt_base hlt)]
    rfl
  · rw [hexec, load_of_memRead_error (memRead_of_past_end hlo (by omega))]
    rfl

/-- Settles O7: the one byte at the address, sign-extended. -/
theorem lbLoadsSignedByte : Obligations.LbLoadsSignedByte :=
  loadRule_of_load (fun _ _ _ => rfl) (by decide) (fun iw (h : funct3Field iw = 0) => by simp [decodeLoad, h])
    (fun _ _ _ => rfl) fun _ _ _ => sext_of_eq_setWidth (by decide) loadBytes_byte

/-- Settles O8: the two bytes at the address, sign-extended. -/
theorem lhLoadsSignedHalfword : Obligations.LhLoadsSignedHalfword :=
  loadRule_of_load (fun _ _ _ => rfl) (by decide) (fun iw (h : funct3Field iw = 1) => by simp [decodeLoad, h])
    (fun _ _ _ => rfl) fun _ _ hm => sext_of_eq_setWidth (by decide) (loadBytes_half hm)

/-- Settles O9: the four bytes at the address, sign-extended. -/
theorem lwLoadsSignedWord : Obligations.LwLoadsSignedWord :=
  loadRule_of_load (fun _ _ _ => rfl) (by decide) (fun iw (h : funct3Field iw = 2) => by simp [decodeLoad, h])
    (fun _ _ _ => rfl) fun _ _ hm => sext_of_eq_setWidth (by decide) (loadBytes_word hm)

/-- Settles O10: the eight bytes at the address fill the register. -/
theorem ldLoadsDoubleword : Obligations.LdLoadsDoubleword :=
  loadRule_of_load (fun _ _ _ => rfl) (by decide) (fun iw (h : funct3Field iw = 3) => by simp [decodeLoad, h])
    (fun _ _ _ => rfl) fun _ _ hm => loadBytes_dword hm

/-- Settles O11: the one byte at the address, zero-extended. -/
theorem lbuLoadsUnsignedByte : Obligations.LbuLoadsUnsignedByte :=
  loadRule_of_load (fun _ _ _ => rfl) (by decide) (fun iw (h : funct3Field iw = 4) => by simp [decodeLoad, h])
    (fun _ _ _ => rfl) fun _ _ _ => zext_of_eq_setWidth (by decide) loadBytes_byte

/-- Settles O12: the two bytes at the address, zero-extended. -/
theorem lhuLoadsUnsignedHalfword : Obligations.LhuLoadsUnsignedHalfword :=
  loadRule_of_load (fun _ _ _ => rfl) (by decide) (fun iw (h : funct3Field iw = 5) => by simp [decodeLoad, h])
    (fun _ _ _ => rfl) fun _ _ hm => zext_of_eq_setWidth (by decide) (loadBytes_half hm)

/-- Settles O13: the four bytes at the address, zero-extended. -/
theorem lwuLoadsUnsignedWord : Obligations.LwuLoadsUnsignedWord :=
  loadRule_of_load (fun _ _ _ => rfl) (by decide) (fun iw (h : funct3Field iw = 6) => by simp [decodeLoad, h])
    (fun _ _ _ => rfl) fun _ _ hm => zext_of_eq_setWidth (by decide) (loadBytes_word hm)

/-! ### The frame of the loads -/

/-- A register write changes what no other register reads (R10). -/
theorem readReg_writeReg_other (s : State) {j k : RegIdx} (v : Word) (h : k ≠ j) :
    (s.writeReg j v).readReg k = s.readReg k := by
  cases hx : s.x0Hardwired with
  | true => rw [readReg_writeReg_of_hardwired s hx, if_neg (fun hkj => h hkj.1)]
  | false => rw [readReg_writeReg_of_plain s hx, if_neg h]

/-- What a load that answers has done: raised a fault, or written rd. -/
theorem load_next_cases {w : Width} {ext : Word → Word} {rd rs1 : RegIdx} {imm : Word} {s t : State}
    (h : load w ext rd rs1 imm s = .next t) : (∃ f, t = s.raise f) ∨ ∃ v, t = s.writeReg rd v := by
  rcases load_cases w ext rd rs1 imm s with ⟨f, hl, -⟩ | ⟨-, hl⟩ <;> (rw [hl] at h; cases h)
  · exact .inl ⟨f, rfl⟩
  · exact .inr ⟨_, rfl⟩

/-- Each of the seven loads is the shared load at its width and extension (R130). -/
theorem exec_eq_load_of_mem {rd rs1 : RegIdx} {imm : Word} {i : Instr}
    (hi : i ∈ [Instr.lb rd rs1 imm, .lh rd rs1 imm, .lw rd rs1 imm, .ld rd rs1 imm, .lbu rd rs1 imm,
      .lhu rd rs1 imm, .lwu rd rs1 imm]) : ∃ w ext, exec i = load w ext rd rs1 imm := by
  simp only [List.mem_cons, List.not_mem_nil, or_false] at hi
  rcases hi with rfl | rfl | rfl | rfl | rfl | rfl | rfl <;> exact ⟨_, _, rfl⟩

/-- Settles O14: a load has raised a fault, which changes STATUS alone, or written rd and no other register. -/
theorem loadFrame : Obligations.LoadFrame := by
  intro rd rs1 imm i s t hi h
  obtain ⟨w, ext, hload⟩ := exec_eq_load_of_mem hi
  rw [hload] at h
  rcases load_next_cases h with ⟨f, rfl⟩ | ⟨v, rfl⟩
  · exact ⟨fun _ _ => rfl, fun _ _ => rfl, fun _ => rfl, rfl, rfl, rfl, rfl, rfl, .inr ⟨f, rfl⟩⟩
  · refine ⟨fun j hj => readReg_writeReg_other s v hj, fun hx h0 => ?_, fun _ => ?_, ?_, ?_, ?_, ?_, ?_, .inl ?_⟩
    · rw [h0, writeReg_zero_of_hardwired s hx]
    all_goals simp

end Sys2Proof.Machine
end

section
/-! SUPPORT and PROOFS for the OP-IMM family's obligations (41_op_imm.md): the words of the OP-IMM row, the 64-bit sum as
a number, and the one register that ADDI and ADD write. -/

namespace Sys2Proof

/-! ### The words of the OP-IMM row -/

/-- A word with the OP-IMM opcode and funct3 0 decodes to ADDI on its fields (R98). -/
theorem decode_addi {w : InstrWord} (ho : opcodeField w = 0x13) (hf : funct3Field w = 0) :
    decode w = .ok (.addi (rdField w) (rs1Field w) (immI w)) := by
  have hload : opcodeField w ≠ 0x03 := by rw [ho]; decide
  rw [decode_eq_ok_iff, select, if_neg hload, if_pos ho, decodeOpImm, if_pos hf]

end Sys2Proof

namespace Sys2Proof.Machine

/-! ### The sum -/

/-- The sum of two words is the sum of their numbers modulo 2^64 (R8, R182). -/
theorem add_eq_ofNat_mod (a b : Word) : a + b = BitVec.ofNat 64 ((a.toNat + b.toNat) % 2 ^ 64) := by
  rw [← BitVec.toNat_add, BitVec.ofNat_toNat, BitVec.setWidth_eq]

/-- Settles O15: opcode and funct3 select ADDI, and executing it writes the sum of source and immediate. -/
theorem addiAddsImmediate : Obligations.AddiAddsImmediate := by
  refine ⟨fun _ _ _ => rfl, fun w hw => ?_, fun rd rs1 imm s => ?_⟩
  · obtain ⟨hop, hf⟩ := selectors_of_mask w _ hw
    exact decode_addi hop hf
  · rw [exec_addi, add_eq_ofNat_mod]

/-! ### The frame of ADDI and ADD -/

/-- ADDI and ADD that answer have written rd with some value (R150, R180). -/
theorem eq_writeReg_of_exec_arithmetic {rd rs1 rs2 : RegIdx} {imm : Word} {i : Instr} {s t : State}
    (hi : i ∈ [Instr.addi rd rs1 imm, .add rd rs1 rs2]) (h : exec i s = .next t) : ∃ v, t = s.writeReg rd v := by
  simp only [List.mem_cons, List.not_mem_nil, or_false] at hi
  rcases hi with rfl | rfl <;> (cases h; exact ⟨_, rfl⟩)

/-- Settles O17: either has written rd, which changes no other register and nothing but registers. -/
theorem arithmeticFrame : Obligations.ArithmeticFrame := by
  intro rd rs1 rs2 imm i s t hi h
  obtain ⟨v, rfl⟩ := eq_writeReg_of_exec_arithmetic hi h
  refine ⟨fun j hj => readReg_writeReg_other s v hj, fun hx h0 => ?_, fun _ => ?_, ?_, ?_, ?_, ?_, ?_, ?_⟩
  · rw [h0, writeReg_zero_of_hardwired s hx]
  all_goals simp

end Sys2Proof.Machine
end

section
/-! SUPPORT and PROOFS for the STORE family's obligations (42_store.md): the words of the STORE rows, a store by where its
access lies, the bytes it writes and keeps, and the one rule behind all four stores. -/

namespace Sys2Proof

/-! ### The words of the STORE rows -/

/-- A word with the STORE opcode decodes by its funct3 alone (R98). -/
theorem decode_of_decodeStore {w : InstrWord} {i : Instr} (ho : opcodeField w = 0x23) (h : decodeStore w = some i) :
    decode w = .ok i := by
  have hload : opcodeField w ≠ 0x03 := by rw [ho]; decide
  have hopImm : opcodeField w ≠ 0x13 := by rw [ho]; decide
  rw [decode_eq_ok_iff, select, if_neg hload, if_neg hopImm, if_pos ho, h]

end Sys2Proof

namespace Sys2Proof.Machine

/-! ### A store, by where its access lies -/

section
variable {w : Width} {rs1 rs2 : RegIdx} {imm : Word} {s : State}

/-- A store whose access raises a fault raises it and writes nothing (R12, R160). -/
theorem store_of_memWrite_error {f : Fault} (h : memWrite s (s.readReg rs1 + imm) w (s.readReg rs2) = .error f) :
    store w rs1 rs2 imm s = .next (s.raise f) := by
  rw [store, effectiveAddress, add64, h]

/-- A store to bytes of the window writes the low bytes of x[rs2] there (R160). -/
theorem store_of_mapped (h : mapped (s.readReg rs1 + imm) w.bytes) :
    store w rs1 rs2 imm s = .next { s with
      mem := storeBytes s.mem ((s.readReg rs1 + imm).toNat - Config.base) (s.readReg rs2) w.bytes } := by
  rw [store, effectiveAddress, add64, memWrite_of_mapped h]

/-- What a store that answers has done: raised a fault, or written its bytes at the effective address, in the window. -/
theorem store_next_cases {t : State} (h : store w rs1 rs2 imm s = .next t) :
    (∃ f, t = s.raise f) ∨
    (mapped (effectiveAddress s rs1 imm) w.bytes ∧ t = { s with
      mem := storeBytes s.mem ((effectiveAddress s rs1 imm).toNat - Config.base) (s.readReg rs2) w.bytes }) := by
  rcases store_cases w rs1 rs2 imm s with ⟨f, hs, -⟩ | ⟨hm, hs⟩ <;> (rw [hs] at h; cases h)
  · exact .inl ⟨f, rfl⟩
  · exact .inr ⟨hm, rfl⟩

end

/-! ### The bytes a store writes and keeps -/

section
variable {m : Memory} (hm : canonical m) (o : Nat) (v : Word) {n : Nat}
include hm

/-- Byte `j` of the stored value stands `j` places above the offset (R62, R68). -/
theorem readCell_storeBytes_inside {j : Nat} (hj : j < n) :
    readCell (storeBytes m o v n) (o + j) = v.extractLsb' (8 * j) 8 := by
  rw [readCell_storeBytes m hm, if_pos (by omega), Nat.add_sub_cancel_left]

/-- A byte outside the stored ones reads as before (R62). -/
theorem readCell_storeBytes_outside {k : Nat} (hk : k < o ∨ o + n ≤ k) :
    readCell (storeBytes m o v n) k = readCell m k := by
  rw [readCell_storeBytes m hm, if_neg (by omega)]

end

/-! ### The rule of the STORE family -/

/-- An instruction that is written, decoded and executed as the store of width `w` meets the STORE family's rule. -/
theorem storeRule_of_store {name : String} {mk : RegIdx → RegIdx → Word → Instr} {matchValue : InstrWord}
    {funct3 : BitVec 3} {w : Width}
    (htext : ∀ rs1 rs2 imm, asmText (mk rs1 rs2 imm) = asmMemory name rs2 rs1 imm)
    (hmatch : opcodeField matchValue = 0x23 ∧ funct3Field matchValue = funct3)
    (hdecode : ∀ iw, funct3Field iw = funct3 → decodeStore iw = some (mk (rs1Field iw) (rs2Field iw) (immS iw)))
    (hexec : ∀ rs1 rs2 imm, exec (mk rs1 rs2 imm) = store w rs1 rs2 imm) :
    StoreRule name mk matchValue w w.bytes := by
  refine ⟨htext, fun iw hiw => ?_, fun rs1 rs2 imm s hwf hm => ?_, fun rs1 rs2 imm s hlt => ?_,
    fun rs1 rs2 imm s hlo hhi => ?_⟩
  · obtain ⟨hop, hf⟩ := selectors_of_mask iw matchValue hiw
    exact decode_of_decodeStore (hop.trans hmatch.1) (hdecode iw (hf.trans hmatch.2))
  · rw [hexec, store_of_mapped hm]
    obtain ⟨hlo, hhi⟩ := hm
    exact ⟨_, rfl, rfl, storeBytes_wf _ hwf _ _ _ (by omega),
      fun j hj => readCell_storeBytes_inside hwf.1 _ _ hj, fun o ho => readCell_storeBytes_outside hwf.1 _ _ ho⟩
  · rw [hexec, store_of_memWrite_error (memWrite_of_lt_base hlt)]
    rfl
  · rw [hexec, store_of_memWrite_error (memWrite_of_past_end hlo (by omega))]
    rfl

/-- Settles O18: funct3 0 selects the store of one byte. -/
theorem sbStoresByte : Obligations.SbStoresByte :=
  storeRule_of_store (fun _ _ _ => rfl) (by decide) (fun iw (h : funct3Field iw = 0) => by simp [decodeStore, h])
    fun _ _ _ => rfl

/-- Settles O19: funct3 1 selects the store of two bytes. -/
theorem shStoresHalfword : Obligations.ShStoresHalfword :=
  storeRule_of_store (fun _ _ _ => rfl) (by decide) (fun iw (h : funct3Field iw = 1) => by simp [decodeStore, h])
    fun _ _ _ => rfl

/-- Settles O20: funct3 2 selects the store of four bytes. -/
theorem swStoresWord : Obligations.SwStoresWord :=
  storeRule_of_store (fun _ _ _ => rfl) (by decide) (fun iw (h : funct3Field iw = 2) => by simp [decodeStore, h])
    fun _ _ _ => rfl

/-- Settles O21: funct3 3 selects the store of eight bytes. -/
theorem sdStoresDoubleword : Obligations.SdStoresDoubleword :=
  storeRule_of_store (fun _ _ _ => rfl) (by decide) (fun iw (h : funct3Field iw = 3) => by simp [decodeStore, h])
    fun _ _ _ => rfl

/-! ### The frame of the stores -/

/-- Each of the four stores is the shared store at the width of its bytes (R160). -/
theorem exec_eq_store_of_mem {rs1 rs2 : RegIdx} {imm : Word} {i : Instr} {n : Nat}
    (hi : (i, n) ∈ [(Instr.sb rs1 rs2 imm, 1), (.sh rs1 rs2 imm, 2), (.sw rs1 rs2 imm, 4), (.sd rs1 rs2 imm, 8)]) :
    ∃ w : Width, w.bytes = n ∧ exec i = store w rs1 rs2 imm := by
  simp only [List.mem_cons, Prod.mk.injEq, List.not_mem_nil, or_false] at hi
  rcases hi with ⟨rfl, rfl⟩ | ⟨rfl, rfl⟩ | ⟨rfl, rfl⟩ | ⟨rfl, rfl⟩
  · exact ⟨.byte, rfl, rfl⟩
  · exact ⟨.half, rfl, rfl⟩
  · exact ⟨.word, rfl, rfl⟩
  · exact ⟨.dword, rfl, rfl⟩

/-- Settles O22: a store has raised a fault, which changes STATUS alone, or written the bytes at its address and nothing
else. -/
theorem storeFrame : Obligations.StoreFrame := by
  intro rs1 rs2 imm i n s t hi hwf h
  obtain ⟨w, rfl, hstore⟩ := exec_eq_store_of_mem hi
  rw [hstore] at h
  rcases store_next_cases h with ⟨f, rfl⟩ | ⟨⟨hlo, hhi⟩, rfl⟩
  · exact ⟨fun _ => rfl, rfl, rfl, rfl, rfl, rfl, .inr ⟨f, rfl⟩, fun _ _ _ _ => rfl⟩
  · refine ⟨fun _ => rfl, rfl, rfl, rfl, rfl, rfl, .inl rfl, fun a ha o ho => ?_⟩
    subst ha
    exact readCell_storeBytes_outside hwf.1 _ _ (by omega)

end Sys2Proof.Machine
end

section
/-! SUPPORT and PROOFS for the OP family's obligation (43_op.md): the words of the OP row, and the sum ADD writes. -/

namespace Sys2Proof

/-- A word with the OP opcode, funct3 0 and funct7 0 decodes to ADD on its fields (R98). -/
theorem decode_add {w : InstrWord} (ho : opcodeField w = 0x33) (hf3 : funct3Field w = 0) (hf7 : funct7Field w = 0) :
    decode w = .ok (.add (rdField w) (rs1Field w) (rs2Field w)) := by
  have hload : opcodeField w ≠ 0x03 := by rw [ho]; decide
  have hopImm : opcodeField w ≠ 0x13 := by rw [ho]; decide
  have hstore : opcodeField w ≠ 0x23 := by rw [ho]; decide
  rw [decode_eq_ok_iff, select, if_neg hload, if_neg hopImm, if_neg hstore, if_pos ho, decodeOp, if_pos ⟨hf3, hf7⟩]

end Sys2Proof

namespace Sys2Proof.Machine

/-- ADD writes the sum of its two sources, both read before the write (R180). -/
theorem exec_add (rd rs1 rs2 : RegIdx) (s : State) :
    exec (.add rd rs1 rs2) s = .next (s.writeReg rd (s.readReg rs1 + s.readReg rs2)) := rfl

/-- Settles O16: opcode, funct3 and funct7 select ADD, and executing it writes the sum of the two sources. -/
theorem addAddsRegisters : Obligations.AddAddsRegisters := by
  refine ⟨fun _ _ _ => rfl, fun w hw => ?_, fun rd rs1 rs2 s => ?_⟩
  · obtain ⟨hop, hf3, hf7⟩ := selectors_of_wide_mask w _ hw
    exact decode_add hop hf3 hf7
  · rw [exec_add, add_eq_ofNat_mod]

end Sys2Proof.Machine
end

section
/-! SUPPORT and PROOFS for the exceptions' obligations (60_exceptions.md): the words outside the dispatch table, the
range fault of the CSR port, and what a faulting step leaves. -/

namespace Sys2Proof

/-! ### Words outside the dispatch table -/

section
variable {w : InstrWord} {i : Instr}

/-- The opcode as a number (R92). -/
theorem toNat_opcodeField (w : InstrWord) : (opcodeField w).toNat = w.toNat % 128 := by
  rw [opcodeField, BitVec.extractLsb'_toNat, Nat.shiftRight_zero]

/-- The funct3 field as a number (R92). -/
theorem toNat_funct3Field (w : InstrWord) : (funct3Field w).toNat = w.toNat / 4096 % 8 := by
  rw [funct3Field, BitVec.extractLsb'_toNat, Nat.shiftRight_eq_div_pow]

/-- The funct7 field, the top of the word, as a number (R92). -/
theorem toNat_funct7Field (w : InstrWord) : (funct7Field w).toNat = w.toNat / 33554432 := by
  have hw : w.toNat < 2 ^ 32 := w.isLt
  rw [funct7Field, BitVec.extractLsb'_toNat, Nat.shiftRight_eq_div_pow]
  omega

/-- The LOAD rows have funct3 at most 6 (R98, R139). -/
theorem funct3_le_of_decodeLoad (h : decodeLoad w = some i) : w.toNat / 4096 % 8 ≤ 6 := by
  rw [← toNat_funct3Field]
  unfold decodeLoad at h
  split_ifs at h <;> (rw [‹funct3Field w = _›]; decide)

/-- The OP-IMM row has funct3 0 (R98, R151). -/
theorem funct3_of_decodeOpImm (h : decodeOpImm w = some i) : w.toNat / 4096 % 8 = 0 := by
  unfold decodeOpImm at h
  split_ifs at h with hf
  rw [← toNat_funct3Field, hf]
  rfl

/-- The STORE rows have funct3 at most 3 (R98, R166). -/
theorem funct3_le_of_decodeStore (h : decodeStore w = some i) : w.toNat / 4096 % 8 ≤ 3 := by
  rw [← toNat_funct3Field]
  unfold decodeStore at h
  split_ifs at h <;> (rw [‹funct3Field w = _›]; decide)

/-- The OP row has funct3 0 and funct7 0 (R98, R181). -/
theorem functs_of_decodeOp (h : decodeOp w = some i) : w.toNat / 4096 % 8 = 0 ∧ w.toNat / 33554432 = 0 := by
  unfold decodeOp at h
  split_ifs at h with hf
  rw [← toNat_funct3Field, ← toNat_funct7Field, hf.1, hf.2]
  exact ⟨rfl, rfl⟩

end

end Sys2Proof

namespace Sys2Proof.Machine

/-- A word that selects a row is one of the 13 selections (R98). -/
theorem isTableWord_of_select {w : InstrWord} {i : Instr} (h : select w = some i) : isTableWord w := by
  rw [isTableWord, ← toNat_opcodeField]
  unfold select at h
  split_ifs at h with hload hopImm hstore hop
  · exact .inl ⟨congrArg _ hload, funct3_le_of_decodeLoad h⟩
  · exact .inr (.inl ⟨congrArg _ hopImm, funct3_of_decodeOpImm h⟩)
  · exact .inr (.inr (.inl ⟨congrArg _ hstore, funct3_le_of_decodeStore h⟩))
  · exact .inr (.inr (.inr ⟨congrArg _ hop, functs_of_decodeOp h⟩))

/-- A word outside the table does not decode, and the error names it (R99). -/
theorem decode_of_not_isTableWord {w : InstrWord} (h : ¬ isTableWord w) :
    decode w = .error (.illegalInstruction w) := by
  unfold decode
  cases hs : select w with
  | none => rfl
  | some i => exact absurd (isTableWord_of_select hs) h

/-- Settles O5: fetch gives the word, and a word outside the table fails to decode. -/
theorem illegalWordHaltsEngine : Obligations.IllegalWordHaltsEngine := by
  intro s b0 b1 b2 b3 rest hr hb hw
  have hfetch : decodeBytes s.bytesAtPc = .error (.illegalInstruction (b3 ++ b2 ++ b1 ++ b0)) := by
    rw [State.bytesAtPc, hb, decodeBytes, wordOfBytes, decode_of_not_isTableWord hw]
  exact step_of_illegal s _ hr hfetch

/-! ### The range fault of the CSR port -/

/-- A CSR read faults exactly from NCSR on, with the address as it was given (R38, R39, R203). -/
theorem csrRead_eq_error_iff (s : State) (a : Nat) (f : Fault) :
    csrRead s a = .error f ↔ Config.ncsr ≤ a ∧ f = .csrRangeFault a := by
  rcases csrRead_cases s a with ⟨ha, h⟩ | ⟨ha, x, h⟩ <;> rw [h]
  · simp [ha, eq_comm]
  · simp [Nat.not_le_of_lt ha]

/-- A CSR write faults exactly from NCSR on, with the address as it was given (R38, R39, R203). -/
theorem csrWrite_eq_error_iff (s : State) (a : Nat) (v : Word) (f : Fault) :
    csrWrite s a v = .error f ↔ Config.ncsr ≤ a ∧ f = .csrRangeFault a := by
  rcases csrWrite_cases s a v with ⟨ha, h⟩ | ⟨rfl, x, h⟩ | ⟨ha, -, h⟩ <;> rw [h]
  · simp [ha, eq_comm]
  · have hsie : ¬ Config.ncsr ≤ Config.sie := by decide
    simp [hsie]
  · simp [Nat.not_le_of_lt ha]

/-- A CSR write that is out of range changes nothing, not even STATUS (R38, D24). -/
theorem afterCsrWrite_outOfRange (s : State) (a : Nat) (v : Word) (h : Config.ncsr ≤ a) :
    afterCsrWrite s a v = s := by
  rw [afterCsrWrite, csrWrite_outOfRange s a v h]

/-- Settles O27: the exact range condition of each call, and the state after a write out of range. -/
theorem csrRangeFaultChangesNothing : Obligations.CsrRangeFaultChangesNothing := fun s a v f =>
  ⟨csrRead_eq_error_iff s a f, csrWrite_eq_error_iff s a v f, afterCsrWrite_outOfRange s a v⟩

/-! ### What a faulting step leaves -/

/-- Advancing the PC raises no fault: STATUS is Faulted after it only where it was before (R107). -/
theorem State.status_of_advance_faulted {s : State} {f : Fault} (h : s.advance.status = .faulted f) :
    s.status = .faulted f := by
  rw [State.advance_status] at h
  split_ifs at h
  exact h

/-- A step of a running engine that ends in a fault has raised it and done nothing else (R107, R206). -/
theorem eq_raise_of_step_faulted {s t : State} {f : Fault} (hr : s.status = .running) (h : step s = .next t)
    (hf : t.status = .faulted f) : t = s.raise f := by
  rcases step_next_cases h with ⟨hn, -⟩ | ⟨-, ⟨g, -, rfl⟩ | ⟨u, hu, rfl⟩⟩
  · exact absurd hr hn
  · cases hf
    rfl
  · have hur : u.status = .running := hu.status_eq.trans hr
    cases hur.symm.trans (State.status_of_advance_faulted hf)

/-- Settles O37: a faulting step has only raised its fault, and a faulted state is final. -/
theorem faultIsPreciseAndFinal : Obligations.FaultIsPreciseAndFinal := by
  intro s t f hr h hf
  have hfinal : t.status ≠ .running := by rw [hf]; simp
  exact ⟨eq_raise_of_step_faulted hr h hf, fun k => finalStatesStayFinal t k hfinal⟩

end Sys2Proof.Machine
end

section
/-! SUPPORT and PROOFS for the obligations of reset and hazards (70_reset_and_hazards.md): the instruction store over
steps and host calls, the cells construction fills, what a step of a running engine does to the PC, and the end of every
run. -/

namespace Sys2Proof.Machine

/-! ### The instruction store -/

/-- No step changes the instruction store (R78, R248). -/
theorem step_imem {s t : State} (h : step s = .next t) : t.imem = s.imem := by
  rcases step_next_cases h with ⟨-, rfl⟩ | ⟨-, ⟨f, -, rfl⟩ | ⟨u, hu, rfl⟩⟩
  · rfl
  · rfl
  · exact hu.imem_eq

/-- No CSR write of the host changes the instruction store (R34, R248). -/
theorem afterCsrWrite_imem (s : State) (a : Nat) (v : Word) : (afterCsrWrite s a v).imem = s.imem := by
  unfold afterCsrWrite
  rcases csrWrite_cases s a v with ⟨-, h⟩ | ⟨-, x, h⟩ | ⟨-, -, h⟩ <;> rw [h]

/-- Settles O39: neither a step nor a CSR write of the host touches the instruction store. -/
theorem instructionStoreIsImmutable : Obligations.InstructionStoreIsImmutable :=
  ⟨fun _ _ h => step_imem h, afterCsrWrite_imem⟩

/-! ### Construction -/

section
variable {n : Nat} (p : Nat → Prop) [DecidablePred p] (init : List (Nat × BitVec n))

/-- The cells that hold what `init` lists for the keys with `p`, in canonical form: `constructMem` and `constructCsrs`
for the keys that name a cell (R48, R49; log entry 9). -/
def fillCells : List (Nat × BitVec n) := init.foldr (fun c m => if p c.1 then writeCell m c.1 c.2 else m) []

theorem fillCells_cons (c : Nat × BitVec n) :
    fillCells p (c :: init) = if p c.1 then writeCell (fillCells p init) c.1 c.2 else fillCells p init := rfl

theorem fillCells_canonical : canonical (fillCells p init) := by
  induction init with
  | nil => exact ⟨List.Pairwise.nil, by simp [fillCells]⟩
  | cons c rest ih =>
    rw [fillCells_cons]
    split
    · exact writeCell_canonical _ ih _ _
    · exact ih

variable {p} in
/-- Filled cells hold at a key with `p` the value of its first entry, and 0 without one (log entry 9). -/
theorem readCell_fillCells {k : Nat} (hk : p k) : readCell (fillCells p init) k = readCell init k := by
  induction init with
  | nil => rfl
  | cons c rest ih =>
    rw [fillCells_cons, readCell]
    by_cases hc : c.1 = k
    · rw [if_pos (hc ▸ hk), readCell_writeCell _ (fillCells_canonical p rest), if_pos hc.symm, if_pos hc]
    · rw [if_neg hc]
      split
      · rw [readCell_writeCell _ (fillCells_canonical p rest), if_neg (Ne.symm hc), ih]
      · exact ih

end

/-- Construction sets every CSR cell but 0x104 (R48, D16). -/
theorem readCell_constructCsrs (init : CsrCells) {a : Nat} (ha : a < Config.ncsr) (hs : a ≠ Config.sie) :
    readCell (constructCsrs init) a = readCell init a :=
  readCell_fillCells (p := fun a => a < Config.ncsr ∧ a ≠ Config.sie) init ⟨ha, hs⟩

/-- Construction sets every Memory byte (R49). -/
theorem readCell_constructMem (init : Memory) {o : Nat} (ho : o < Config.cap) :
    readCell (constructMem init) o = readCell init o :=
  readCell_fillCells (p := fun o => o < Config.cap) init ho

/-- Settles O29: each field is its input, and the filled cells read as the inputs list them. -/
theorem constructSetsState : Obligations.ConstructSetsState := by
  intro prog initX initCsr initMem hw hwords hshort
  refine ⟨_, if_pos ⟨hwords, hshort⟩, rfl, rfl, rfl, rfl, ?status, fun a ha hs => ?csr, ?sie, fun o ho => ?mem⟩
  case status =>
    by_cases h0 : prog.length = 0
    · rw [if_pos h0, if_neg (by omega)]
    · rw [if_neg h0, if_pos (Nat.pos_of_ne_zero h0)]
  case csr => rw [csrRead_cell _ a ha hs, readCell_constructCsrs initCsr ha hs]
  case sie =>
    have hmie := readCell_constructCsrs initCsr (a := Config.mie) (by decide) (by decide)
    have hmideleg := readCell_constructCsrs initCsr (a := Config.mideleg) (by decide) (by decide)
    exact (csrRead_sie _).trans (by rw [hmie, hmideleg]; rfl)
  case mem => exact (if_pos ho).trans (congrArg some (readCell_constructMem initMem ho))

/-- Settles O30: a bad length fails the check construction begins with. -/
theorem constructRefusesBadLength : Obligations.ConstructRefusesBadLength := by
  intro prog initX initCsr initMem hw hbad
  exact if_neg (by omega)

/-! ### Runs -/

/-- A run of one step more answers a state exactly if the first step answers one from which the rest does. -/
theorem hostRun_succ_eq_next_iff (M : Host.Core) (s t : M.State) (k : Nat) :
    M.run (k + 1) s = .next t ↔ ∃ u, M.step s = .next u ∧ M.run k u = .next t := by
  rw [Host.Core.run]
  cases M.step s <;> simp

/-- A run of the engine that answers begins with a step that answers. -/
theorem exists_step_of_run_succ {s t : State} {k : Nat} (h : core.run (k + 1) s = .next t) :
    ∃ u, step s = .next u ∧ core.run k u = .next t :=
  (hostRun_succ_eq_next_iff core s t k).1 h

/-- A run of `k + j` steps is one of `k` steps and then one of `j`. -/
theorem run_add {s t : State} {k : Nat} (j : Nat) (h : core.run k s = .next t) :
    core.run (k + j) s = core.run j t := by
  induction k generalizing s with
  | zero =>
    cases h
    rw [Nat.zero_add]
  | succ k ih =>
    obtain ⟨u, hstep, hrun⟩ := exists_step_of_run_succ h
    rw [Nat.add_right_comm, run_next s u (k + j) hstep, ih hrun]

/-- Run stops at a final state (R244). -/
theorem runSteps_of_final (k : Nat) {s : State} (hs : s.status ≠ .running) : runSteps k s = .next s := by
  cases k with
  | zero => rfl
  | succ k =>
    rw [runSteps]
    split
    · contradiction
    · rfl
    · rfl

/-- Run steps a running engine and goes on (R244). -/
theorem runSteps_next {s t : State} (k : Nat) (hr : s.status = .running) (h : step s = .next t) :
    runSteps (k + 1) s = runSteps k t := by
  simp only [runSteps, hr, h]

/-- Run's steps are plain steps: stopping at a final state is what further steps do anyway (R45, R244). -/
theorem State.Inv.runSteps_eq_run {s : State} (hi : s.Inv) (k : Nat) : runSteps k s = core.run k s := by
  induction k generalizing s with
  | zero => rfl
  | succ k ih =>
    by_cases hr : s.status = .running
    · obtain ⟨u, hstep⟩ := stepAlwaysAnswers s hi
      rw [runSteps_next k hr hstep, ih (stepKeepsInv s u hi hstep), run_next s u k hstep]
    · exact (runSteps_of_final _ hr).trans (finalStatesStayFinal s _ hr).symm

/-- What the step of a running engine does: raise a fault, or reach a state that is not Faulted, 4 bytes further on in
the same program (R27, R107). -/
theorem State.Inv.step_of_running {s : State} (hi : s.Inv) (hr : s.status = .running) :
    (∃ f, step s = .next (s.raise f)) ∨
    ∃ u, step s = .next u ∧ u.Inv ∧ u.imem = s.imem ∧ u.pc.toNat = s.pc.toNat + 4 ∧
      ∀ f, u.status ≠ .faulted f := by
  obtain ⟨u, hu⟩ := stepAlwaysAnswers s hi
  rcases stepAdvancesByFour s u hi hr hu with ⟨hpc, hst⟩ | ⟨f, rfl⟩
  · refine .inr ⟨u, hu, stepKeepsInv s u hi hu, step_imem hu, hpc, fun f hf => ?_⟩
    rw [hst] at hf
    split at hf <;> cases hf
  · exact .inl ⟨f, hu⟩

/-- A fault ends the run: every further step answers the faulted state (R206). -/
theorem run_succ_of_raise {s : State} {f : Fault} (h : step s = .next (s.raise f)) (k : Nat) :
    core.run (k + 1) s = .next (s.raise f) := by
  rw [run_next s _ k h, finalStatesStayFinal _ k (by simp)]

/-- As many steps as words are left from the PC on end the run (R245). -/
theorem State.Inv.run_ends {s : State} {k : Nat} (hi : s.Inv) (hk : s.imem.length ≤ s.pc.toNat + 4 * k) :
    ∃ t, core.run k s = .next t ∧ t.status ≠ .running := by
  induction k generalizing s with
  | zero =>
    refine ⟨s, rfl, fun hr => ?_⟩
    have hlt := (statusAgrees_of_running hr).1 hi.status
    omega
  | succ k ih =>
    by_cases hr : s.status = .running
    · rcases hi.step_of_running hr with ⟨f, hstep⟩ | ⟨u, hstep, hu, himem, hpc, -⟩
      · exact ⟨_, run_succ_of_raise hstep k, by simp⟩
      · rw [run_next s u k hstep]
        exact ih hu (by rw [himem, hpc]; omega)
    · exact ⟨s, finalStatesStayFinal s _ hr, hr⟩

/-- Settles O44: the program has L/4 words, and the state that ends the run is final. -/
theorem everyRunEnds : Obligations.EveryRunEnds := by
  intro s hi
  have hwords := hi.wholeWords
  obtain ⟨t, hrun, ht⟩ := hi.run_ends (k := s.imem.length / 4) (by omega)
  refine ⟨t, hrun, ht, (hi.runSteps_eq_run _).trans hrun, fun k hk => ?_⟩
  obtain ⟨j, rfl⟩ := Nat.exists_eq_add_of_le hk
  rw [run_add j hrun, finalStatesStayFinal t j ht]

/-- The PC of every engine lies in the program or at its end (R45). -/
theorem State.Inv.pc_le {s : State} (hi : s.Inv) : s.pc.toNat ≤ s.imem.length := by
  have hst := hi.status
  unfold State.statusAgrees at hst
  split at hst
  · omega
  · omega
  · exact hst.elim
  · omega

/-- An engine that has ended without a fault has its PC at the end of the program (R45). -/
theorem State.Inv.pc_of_ended {s : State} (hi : s.Inv) (hr : s.status ≠ .running)
    (hf : ∀ f, s.status ≠ .faulted f) : s.pc.toNat = s.imem.length := by
  cases hs : s.status with
  | running => exact absurd hs hr
  | completed => exact (statusAgrees_of_completed hs).1 hi.status
  | faulted f => exact absurd hs (hf f)

/-- The PC after `k` steps without a fault, from any PC: `4 * k` further on, or the end of the program (R246). -/
theorem State.Inv.pc_of_run {s t : State} {k : Nat} (hi : s.Inv) (h : core.run k s = .next t)
    (ht : ∀ f, t.status ≠ .faulted f) : t.pc.toNat = min (s.pc.toNat + 4 * k) s.imem.length := by
  induction k generalizing s with
  | zero =>
    cases h
    exact (min_eq_left hi.pc_le).symm
  | succ k ih =>
    by_cases hr : s.status = .running
    · rcases hi.step_of_running hr with ⟨f, hstep⟩ | ⟨u, hstep, hu, himem, hpc, -⟩
      · cases (run_succ_of_raise hstep k).symm.trans h
        exact absurd rfl (ht f)
      · rw [run_next s u k hstep] at h
        rw [ih hu h, himem, hpc]
        omega
    · cases (finalStatesStayFinal s _ hr).symm.trans h
      have hend := hi.pc_of_ended hr ht
      omega

/-- Undoing the fault of a running engine gives back the engine: STATUS alone had changed (R206). -/
theorem raise_setRunning {s : State} (hr : s.status = .running) (f : Fault) :
    { s.raise f with status := .running } = s := by
  rw [← hr]
  rfl

/-- A run into a fault: some number of its steps, fewer than all, reaches the same state, Running, that many words
further on (R206, R246). -/
theorem State.Inv.run_faulted {s t : State} {k : Nat} {f : Fault} (hi : s.Inv) (hs : ∀ f, s.status ≠ .faulted f)
    (h : core.run k s = .next t) (hf : t.status = .faulted f) :
    ∃ j < k, t.pc.toNat = s.pc.toNat + 4 * j ∧ core.run j s = .next { t with status := .running } := by
  induction k generalizing s with
  | zero =>
    cases h
    exact absurd hf (hs f)
  | succ k ih =>
    by_cases hr : s.status = .running
    · rcases hi.step_of_running hr with ⟨g, hstep⟩ | ⟨u, hstep, hu, -, hpc, hus⟩
      · cases (run_succ_of_raise hstep k).symm.trans h
        exact ⟨0, Nat.succ_pos k, rfl, congrArg _ (raise_setRunning hr g).symm⟩
      · rw [run_next s u k hstep] at h
        obtain ⟨j, hj, htpc, hrun⟩ := ih hu hus h
        exact ⟨j + 1, Nat.succ_lt_succ hj, by omega, (run_next s u j hstep).trans hrun⟩
    · cases (finalStatesStayFinal s _ hr).symm.trans h
      exact absurd hf (hs f)

/-- Settles O45: the two ends of a run from any PC, taken at PC = 0. -/
theorem runExecutesInOrder : Obligations.RunExecutesInOrder := by
  intro s t k hi hr hpc h
  have hzero : s.pc.toNat = 0 := by rw [hpc]; rfl
  refine ⟨fun ht => ?_, fun f hf => ?_⟩
  · rw [hi.pc_of_run h ht, hzero, Nat.zero_add]
  · obtain ⟨j, hj, htpc, hrun⟩ := hi.run_faulted (by simp [hr]) h hf
    exact ⟨j, hj, by rw [htpc, hzero, Nat.zero_add], hrun⟩

end Sys2Proof.Machine
end

section
/-! SUPPORT and PROOFS for the remaining obligations: the round trip of the encoder and the words of the dispatch table
(30_encoding.md), why a step faults (60_exceptions.md), and the reset state (10_state.md). -/

namespace Sys2Proof

/-! ### Decoding encoded instructions -/

section
variable {op : BitVec 7} {f3 : BitVec 3} {rd rs1 rs2 : RegIdx} {imm : Word} (h : immInRange imm = true)
include h

/-- The I-type format keeps an immediate in range (R93, R94). -/
theorem immI_encodeI_of_immInRange : immI (encodeI op f3 rd rs1 imm) = imm := by
  rw [immI_encodeI, sext12_extractLsb' imm h]

/-- The S-type format keeps an immediate in range (R93, R95). -/
theorem immS_encodeS_of_immInRange : immS (encodeS op f3 rs1 rs2 imm) = imm := by
  rw [immS_encodeS, sext12_extractLsb' imm h]

end

/-- Settles O2, by the instruction: the opcode selects its family, funct3 the row within it, and the format keeps every
operand. -/
theorem decodeOfEncode : Obligations.DecodeOfEncode := by
  intro i hi
  cases i <;> rw [encode]
  case lb | lh | lw | ld | lbu | lhu | lwu =>
    exact decode_of_decodeLoad (opcodeField_encodeI ..) (by simp [decodeLoad, immI_encodeI_of_immInRange hi])
  case addi =>
    rw [decode_addi (opcodeField_encodeI ..) (funct3Field_encodeI ..), rdField_encodeI, rs1Field_encodeI,
      immI_encodeI_of_immInRange hi]
  case sb | sh | sw | sd =>
    exact decode_of_decodeStore (opcodeField_encodeS ..) (by simp [decodeStore, immS_encodeS_of_immInRange hi])
  case add =>
    rw [decode_add (opcodeField_encodeR ..) (funct3Field_encodeR ..) (funct7Field_encodeR ..), rdField_encodeR,
      rs1Field_encodeR, rs2Field_encodeR]

/-! ### The words of the dispatch table -/

section
variable {w : InstrWord}

theorem opcodeField_eq_of_mod {op : BitVec 7} (h : w.toNat % 128 = op.toNat) : opcodeField w = op :=
  BitVec.eq_of_toNat_eq ((toNat_opcodeField w).trans h)

theorem funct3Field_eq_of_div_mod {f3 : BitVec 3} (h : w.toNat / 4096 % 8 = f3.toNat) : funct3Field w = f3 :=
  BitVec.eq_of_toNat_eq ((toNat_funct3Field w).trans h)

theorem funct7Field_eq_of_div {f7 : BitVec 7} (h : w.toNat / 33554432 = f7.toNat) : funct7Field w = f7 :=
  BitVec.eq_of_toNat_eq ((toNat_funct7Field w).trans h)

/-- Every funct3 up to 6 has a LOAD row (R98). -/
theorem exists_decodeLoad_of_funct3_le (h : w.toNat / 4096 % 8 ≤ 6) : ∃ i, decodeLoad w = some i := by
  rw [← toNat_funct3Field] at h
  unfold decodeLoad
  split_ifs
  case neg => bv_omega
  all_goals exact ⟨_, rfl⟩

/-- Every funct3 up to 3 has a STORE row (R98). -/
theorem exists_decodeStore_of_funct3_le (h : w.toNat / 4096 % 8 ≤ 3) : ∃ i, decodeStore w = some i := by
  rw [← toNat_funct3Field] at h
  unfold decodeStore
  split_ifs
  case neg => bv_omega
  all_goals exact ⟨_, rfl⟩

end

end Sys2Proof

namespace Sys2Proof.Machine

/-- One of the 13 selections decodes (R98, R99). -/
theorem exists_decode_of_isTableWord {w : InstrWord} (h : isTableWord w) : ∃ i, decode w = .ok i := by
  rcases h with ⟨ho, hf⟩ | ⟨ho, hf⟩ | ⟨ho, hf⟩ | ⟨ho, hf3, hf7⟩
  · obtain ⟨i, hi⟩ := exists_decodeLoad_of_funct3_le hf
    exact ⟨i, decode_of_decodeLoad (opcodeField_eq_of_mod ho) hi⟩
  · exact ⟨_, decode_addi (opcodeField_eq_of_mod ho) (funct3Field_eq_of_div_mod hf)⟩
  · obtain ⟨i, hi⟩ := exists_decodeStore_of_funct3_le hf
    exact ⟨i, decode_of_decodeStore (opcodeField_eq_of_mod ho) hi⟩
  · exact ⟨_, decode_add (opcodeField_eq_of_mod ho) (funct3Field_eq_of_div_mod hf3) (funct7Field_eq_of_div hf7)⟩

/-- Settles O4: the selections decode family by family, and nothing else selects a row. -/
theorem exactlyTableWordsDecode : Obligations.ExactlyTableWordsDecode := fun _ =>
  ⟨exists_decode_of_isTableWord, decode_of_not_isTableWord⟩

/-! ### Why a step faults -/

/-- The fault `f` is the one the address map gives an access of width `w` at `a`: below BASE, or past the end of the
window (R67, R200 to R202). -/
def AccessFault (a : Word) (w : Width) (f : Fault) : Prop :=
  (f = .unmappedAddress a w ∧ a.toNat < Config.base) ∨
  (f = .memoryFault a w ∧ Config.base ≤ a.toNat ∧ a.toNat - Config.base + w.bytes > Config.cap)

section
variable {s t : State} {f : Fault} (hr : s.status = .running) (hf : t.status = .faulted f)
include hr hf

/-- A load that faults raises the fault of its access (R130). -/
theorem accessFault_of_load {w : Width} {ext : Word → Word} {rd rs1 : RegIdx} {imm : Word}
    (h : load w ext rd rs1 imm s = .next t) : AccessFault (s.readReg rs1 + imm) w f := by
  rcases memRead_cases s (s.readReg rs1 + imm) w with ⟨hlo, hm⟩ | ⟨hlo, hhi, hm⟩ | ⟨hm, -⟩
  · cases (load_of_memRead_error hm).symm.trans h
    cases hf
    exact .inl ⟨rfl, hlo⟩
  · cases (load_of_memRead_error hm).symm.trans h
    cases hf
    exact .inr ⟨rfl, hlo, by omega⟩
  · cases (load_of_mapped hm).symm.trans h
    simp [hr] at hf

/-- A store that faults raises the fault of its access (R160). -/
theorem accessFault_of_store {w : Width} {rs1 rs2 : RegIdx} {imm : Word}
    (h : store w rs1 rs2 imm s = .next t) : AccessFault (s.readReg rs1 + imm) w f := by
  rcases memWrite_cases s (s.readReg rs1 + imm) w (s.readReg rs2) with ⟨hlo, hm⟩ | ⟨hlo, hhi, hm⟩ | ⟨hm, -⟩
  · cases (store_of_memWrite_error hm).symm.trans h
    cases hf
    exact .inl ⟨rfl, hlo⟩
  · cases (store_of_memWrite_error hm).symm.trans h
    cases hf
    exact .inr ⟨rfl, hlo, by omega⟩
  · cases (store_of_mapped hm).symm.trans h
    simp [hr] at hf

/-- An instruction that faults is a load or store, and the fault is that of its access (R72, R210). -/
theorem accessFault_of_exec {i : Instr} (h : exec i s = .next t) :
    ∃ w rs1 imm, access i = some (w, rs1, imm) ∧ AccessFault (s.readReg rs1 + imm) w f := by
  cases i
  case addi | add =>
    cases h
    simp [hr] at hf
  case sb | sh | sw | sd => exact ⟨_, _, _, rfl, accessFault_of_store hr hf h⟩
  case lb | lh | lw | ld | lbu | lhu | lwu => exact ⟨_, _, _, rfl, accessFault_of_load hr hf h⟩

end

/-- The end of a step raises no fault: STATUS is Faulted after it only where the instruction made it so (R107). -/
theorem State.status_of_afterExecute_faulted {s : State} {f : Fault} (h : s.afterExecute.status = .faulted f) :
    s.status = .faulted f := by
  rw [State.afterExecute_eq] at h
  split_ifs at h
  · exact State.status_of_advance_faulted h
  · exact h

/-- Bytes that are not too few begin with the four of a word (R91). -/
theorem exists_word_of_not_truncated {bs : List Byte} (h : decodeBytes bs ≠ .error .truncated) :
    ∃ b0 b1 b2 b3 rest, bs = b0 :: b1 :: b2 :: b3 :: rest := by
  match bs with
  | [] | [_] | [_, _] | [_, _, _] => exact absurd rfl h
  | b0 :: b1 :: b2 :: b3 :: rest => exact ⟨b0, b1, b2, b3, rest, rfl⟩

/-- Where a running engine steps, the four bytes of a word stand at its PC (R91, R107). -/
theorem exists_word_of_step {s t : State} (hr : s.status = .running) (h : step s = .next t) :
    ∃ b0 b1 b2 b3 rest, s.imem.drop s.pc.toNat = b0 :: b1 :: b2 :: b3 :: rest := by
  refine exists_word_of_not_truncated fun hd => ?_
  rw [← State.bytesAtPc] at hd
  simp only [step, hr, hd] at h
  cases h

/-- Settles O38: the word at the PC is outside the table, and IllegalInstruction is raised; or it decodes, and the fault
is that of its instruction's access. -/
theorem faultTellsItsCause : Obligations.FaultTellsItsCause := by
  intro s t f hr h hf
  obtain ⟨b0, b1, b2, b3, rest, hb⟩ := exists_word_of_step hr h
  refine ⟨b0, b1, b2, b3, rest, hb, ?_⟩
  by_cases hw : isTableWord (b3 ++ b2 ++ b1 ++ b0)
  · obtain ⟨i, hd⟩ := exists_decode_of_isTableWord hw
    obtain ⟨u, hu⟩ := exec_next i s
    cases (step_of_fetched hr hb hd hu).symm.trans h
    obtain ⟨w, rs1, imm, ha, hcause⟩ := accessFault_of_exec hr (State.status_of_afterExecute_faulted hf) hu
    exact .inr ⟨i, w, rs1, imm, hd, ha, hcause⟩
  · cases (illegalWordHaltsEngine s b0 b1 b2 b3 rest hr hb hw).symm.trans h
    cases hf
    exact .inl ⟨rfl, hw⟩

/-! ### The reset state -/

/-- Settles O32: the empty program passes construction's check, and empty lists fill no cell. -/
theorem resetIsEmptyConstruction : Obligations.ResetIsEmptyConstruction :=
  ⟨if_pos ⟨rfl, Nat.two_pow_pos 64⟩, rfl, rfl⟩

/-- Settles O33: the reset state is constructed, and every constructed engine meets the invariant. -/
theorem resetMeetsInv : Obligations.ResetMeetsInv :=
  constructedMeetsInv _ _ _ _ _ _ resetIsEmptyConstruction.1

end Sys2Proof.Machine
end
